-- ==== Sys2Proof/Word.lean ====
section
/-! DEFINITION. The two word widths of the machine (00_scope.md section 4). All values are unsigned (00_scope.md section 6). -/

namespace Sys2Proof

/-- A byte: a register, a timer, a memory cell (10_state.md R11, R17, R25). -/
abbrev Byte := BitVec 8

/-- A 16-bit word: `I`, `PC`, a stack entry, an instruction (10_state.md R13, R14, R16; 30_encoding.md R45). -/
abbrev Word := BitVec 16

/-- A general register's number, 0 to 15 (10_state.md R11). -/
abbrev Reg := Fin 16

/-- `VF`, the register that is also the flag (10_state.md R12). -/
abbrev flagReg : Reg := 15

end Sys2Proof
end

