-- ==== Sys2Proof/Machine/Flags.lean ====
section
/-! DEFINITION. What the flag-writing instructions put into `VF` (10_state.md section 3). -/

namespace Sys2Proof.Machine

/-- A flag as the register holds it: 0 or 1 (10_state.md R12). -/
def flagByte (b : Bool) : Byte := if b then 1 else 0

/-- `8xy4`: 1 iff the sum exceeds 255 (41_alu.md R82). -/
def carryFlag (a b : Byte) : Byte := flagByte (decide (a.toNat + b.toNat > 255))

/-- `8xy5`, `8xy7`: 1 iff the first is strictly greater; equal operands give 0 (41_alu.md R83, R85). -/
def greaterFlag (a b : Byte) : Byte := flagByte (decide (a.toNat > b.toNat))

/-- `8xy6`: the bit shifted out, bit 0 (41_alu.md R84). -/
def lowBitFlag (a : Byte) : Byte := a &&& 1

/-- `8xyE`: the bit shifted out, bit 7 (41_alu.md R86). -/
def highBitFlag (a : Byte) : Byte := (a >>> 7) &&& 1

end Sys2Proof.Machine
end

