-- ==== Sys2Proof/Syntax.lean ====
section
/-! DEFINITION. The instructions as syntax: one constructor for each row of spec/opcode_table.json, in its order
(30_encoding.md R50), the default row among them. -/

namespace Sys2Proof

/-- An instruction with its operand fields (30_encoding.md R46 to R48). A register field is a number 0 to 15, `nnn` a
12-bit address, `kk` a byte, `n` a row count 0 to 15. -/
inductive Instr where
  /-- `00E0` CLS (43_display.md R106). -/
  | cls
  /-- `00EE` RET (40_control_flow.md R61). -/
  | ret
  /-- `1nnn` JP nnn (R62). -/
  | jp (nnn : BitVec 12)
  /-- `2nnn` CALL nnn (R63). -/
  | call (nnn : BitVec 12)
  /-- `3xkk` SE Vx, kk (R64). -/
  | seImm (x : Reg) (kk : Byte)
  /-- `4xkk` SNE Vx, kk (R65). -/
  | sneImm (x : Reg) (kk : Byte)
  /-- `5xy0` SE Vx, Vy (R66). -/
  | seReg (x y : Reg)
  /-- `6xkk` LD Vx, kk (41_alu.md R76). -/
  | ldImm (x : Reg) (kk : Byte)
  /-- `7xkk` ADD Vx, kk (R77). -/
  | addImm (x : Reg) (kk : Byte)
  /-- `8xy0` LD Vx, Vy (R78). -/
  | ldReg (x y : Reg)
  /-- `8xy1` OR Vx, Vy (R79). -/
  | orReg (x y : Reg)
  /-- `8xy2` AND Vx, Vy (R80). -/
  | andReg (x y : Reg)
  /-- `8xy3` XOR Vx, Vy (R81). -/
  | xorReg (x y : Reg)
  /-- `8xy4` ADD Vx, Vy (R82). -/
  | addReg (x y : Reg)
  /-- `8xy5` SUB Vx, Vy (R83). -/
  | subReg (x y : Reg)
  /-- `8xy6` SHR Vx (R84); `y` is in the word and the hardware ignores it. -/
  | shr (x y : Reg)
  /-- `8xy7` SUBN Vx, Vy (R85). -/
  | subnReg (x y : Reg)
  /-- `8xyE` SHL Vx (R86); `y` is in the word and the hardware ignores it. -/
  | shl (x y : Reg)
  /-- `9xy0` SNE Vx, Vy (R67). -/
  | sneReg (x y : Reg)
  /-- `Annn` LD I, nnn (42_index_memory.md R95). -/
  | ldI (nnn : BitVec 12)
  /-- `Bnnn` JP V0, nnn (R68). -/
  | jpV0 (nnn : BitVec 12)
  /-- `Cxkk` RND Vx, kk (R87). -/
  | rnd (x : Reg) (kk : Byte)
  /-- `Dxyn` DRW Vx, Vy, n (43_display.md R107). -/
  | drw (x y : Reg) (n : Fin 16)
  /-- `Ex9E` SKP Vx (44_keys_timers.md R115). -/
  | skp (x : Reg)
  /-- `ExA1` SKNP Vx (R116). -/
  | sknp (x : Reg)
  /-- `Fx07` LD Vx, DT (R118). -/
  | ldVxDt (x : Reg)
  /-- `Fx0A` LD Vx, K (R117). -/
  | ldVxK (x : Reg)
  /-- `Fx15` LD DT, Vx (R119). -/
  | ldDtVx (x : Reg)
  /-- `Fx18` LD ST, Vx (R120). -/
  | ldStVx (x : Reg)
  /-- `Fx1E` ADD I, Vx (R96). -/
  | addIVx (x : Reg)
  /-- `Fx29` LD F, Vx (R97). -/
  | ldFVx (x : Reg)
  /-- `Fx33` LD B, Vx (R98). -/
  | ldBVx (x : Reg)
  /-- `Fx55` LD [I], Vx (R99). -/
  | storeRegs (x : Reg)
  /-- `Fx65` LD Vx, [I] (R100). -/
  | loadRegs (x : Reg)
  /-- Any word that matches no other row (R51, R71), with the word itself. -/
  | unrecognized (w : Word)
  deriving DecidableEq, Repr

end Sys2Proof
end

