-- ==== Sys2Proof/Decode.lean ====
section
/-! DEFINITION. The opcode map as a table of masks and matches (30_encoding.md R46 to R51), the decoder over it, and the
encoder, written from the same table's patterns. -/

namespace Sys2Proof

/-! ### Fields of a word (R46) -/

/-- `x`, bits 11 to 8. -/
def fieldX (w : Word) : Reg := (w.extractLsb' 8 4).toFin

/-- `y`, bits 7 to 4. -/
def fieldY (w : Word) : Reg := (w.extractLsb' 4 4).toFin

/-- `n`, bits 3 to 0. -/
def fieldN (w : Word) : Fin 16 := (w.extractLsb' 0 4).toFin

/-- `kk`, bits 7 to 0. -/
def fieldKK (w : Word) : Byte := w.extractLsb' 0 8

/-- `nnn`, bits 11 to 0. -/
def fieldNNN (w : Word) : BitVec 12 := w.extractLsb' 0 12

/-! ### The opcode map (R50) -/

/-- One row of the opcode map. -/
structure OpcodeRow where
  mask : Word
  pattern : Word
  build : Word → Instr

/-- "A word `w` is instruction `i` iff `(w & mask_i) == match_i`" (R49). -/
def OpcodeRow.accepts (r : OpcodeRow) (w : Word) : Bool := w &&& r.mask == r.pattern

/-- Rows 1 to 9. -/
def opcodeRows0to7 : List OpcodeRow :=
  [ ⟨0xFFFF, 0x00E0, fun _ => .cls⟩,
    ⟨0xFFFF, 0x00EE, fun _ => .ret⟩,
    ⟨0xF000, 0x1000, fun w => .jp (fieldNNN w)⟩,
    ⟨0xF000, 0x2000, fun w => .call (fieldNNN w)⟩,
    ⟨0xF000, 0x3000, fun w => .seImm (fieldX w) (fieldKK w)⟩,
    ⟨0xF000, 0x4000, fun w => .sneImm (fieldX w) (fieldKK w)⟩,
    ⟨0xF00F, 0x5000, fun w => .seReg (fieldX w) (fieldY w)⟩,
    ⟨0xF000, 0x6000, fun w => .ldImm (fieldX w) (fieldKK w)⟩,
    ⟨0xF000, 0x7000, fun w => .addImm (fieldX w) (fieldKK w)⟩ ]

/-- Rows 10 to 18. -/
def opcodeRows8 : List OpcodeRow :=
  [ ⟨0xF00F, 0x8000, fun w => .ldReg (fieldX w) (fieldY w)⟩,
    ⟨0xF00F, 0x8001, fun w => .orReg (fieldX w) (fieldY w)⟩,
    ⟨0xF00F, 0x8002, fun w => .andReg (fieldX w) (fieldY w)⟩,
    ⟨0xF00F, 0x8003, fun w => .xorReg (fieldX w) (fieldY w)⟩,
    ⟨0xF00F, 0x8004, fun w => .addReg (fieldX w) (fieldY w)⟩,
    ⟨0xF00F, 0x8005, fun w => .subReg (fieldX w) (fieldY w)⟩,
    ⟨0xF00F, 0x8006, fun w => .shr (fieldX w) (fieldY w)⟩,
    ⟨0xF00F, 0x8007, fun w => .subnReg (fieldX w) (fieldY w)⟩,
    ⟨0xF00F, 0x800E, fun w => .shl (fieldX w) (fieldY w)⟩ ]

/-- Rows 19 to 25. -/
def opcodeRows9toE : List OpcodeRow :=
  [ ⟨0xF00F, 0x9000, fun w => .sneReg (fieldX w) (fieldY w)⟩,
    ⟨0xF000, 0xA000, fun w => .ldI (fieldNNN w)⟩,
    ⟨0xF000, 0xB000, fun w => .jpV0 (fieldNNN w)⟩,
    ⟨0xF000, 0xC000, fun w => .rnd (fieldX w) (fieldKK w)⟩,
    ⟨0xF000, 0xD000, fun w => .drw (fieldX w) (fieldY w) (fieldN w)⟩,
    ⟨0xF0FF, 0xE09E, fun w => .skp (fieldX w)⟩,
    ⟨0xF0FF, 0xE0A1, fun w => .sknp (fieldX w)⟩ ]

/-- Rows 26 to 34. -/
def opcodeRowsF : List OpcodeRow :=
  [ ⟨0xF0FF, 0xF007, fun w => .ldVxDt (fieldX w)⟩,
    ⟨0xF0FF, 0xF00A, fun w => .ldVxK (fieldX w)⟩,
    ⟨0xF0FF, 0xF015, fun w => .ldDtVx (fieldX w)⟩,
    ⟨0xF0FF, 0xF018, fun w => .ldStVx (fieldX w)⟩,
    ⟨0xF0FF, 0xF01E, fun w => .addIVx (fieldX w)⟩,
    ⟨0xF0FF, 0xF029, fun w => .ldFVx (fieldX w)⟩,
    ⟨0xF0FF, 0xF033, fun w => .ldBVx (fieldX w)⟩,
    ⟨0xF0FF, 0xF055, fun w => .storeRegs (fieldX w)⟩,
    ⟨0xF0FF, 0xF065, fun w => .loadRegs (fieldX w)⟩ ]

/-- The 34 rows of R50, in its order. -/
def opcodeTable : List OpcodeRow := opcodeRows0to7 ++ opcodeRows8 ++ opcodeRows9toE ++ opcodeRowsF

/-- Whether some row of R50 accepts the word. -/
def recognized (w : Word) : Bool := opcodeTable.any fun r => r.accepts w

/-- The decoder, total on words: the row that accepts the word, else the default row (R49, R51). -/
def decodeWord (w : Word) : Instr :=
  match opcodeTable.find? fun r => r.accepts w with
  | some r => r.build w
  | none => .unrecognized w

/-- Why a list of bytes holds no instruction. Every pair of bytes does (R51), so too few bytes is the only reason. -/
inductive DecodeError where
  | tooFewBytes
  deriving DecidableEq, Repr

/-- The word that two consecutive bytes hold, the most significant byte first (20_memory.md R33, 30_encoding.md R45). -/
def wordOfBytes (hi lo : Byte) : Word := hi ++ lo

/-- The first instruction of a list of bytes, and the bytes after it (R45: always two). -/
def decode : List Byte → Except DecodeError (Instr × List Byte)
  | hi :: lo :: rest => .ok (decodeWord (wordOfBytes hi lo), rest)
  | _ => .error .tooFewBytes

/-! ### The encoder -/

/-- The four bits of a register number or a count. -/
def nibble (x : Fin 16) : BitVec 4 := .ofFin x

/-- The instruction's word, digit by digit from the patterns of R50. -/
def encodeWord : Instr → Word
  | .cls => 0x00E0#16
  | .ret => 0x00EE#16
  | .jp nnn => 0x1#4 ++ nnn
  | .call nnn => 0x2#4 ++ nnn
  | .seImm x kk => 0x3#4 ++ nibble x ++ kk
  | .sneImm x kk => 0x4#4 ++ nibble x ++ kk
  | .seReg x y => 0x5#4 ++ nibble x ++ nibble y ++ 0x0#4
  | .ldImm x kk => 0x6#4 ++ nibble x ++ kk
  | .addImm x kk => 0x7#4 ++ nibble x ++ kk
  | .ldReg x y => 0x8#4 ++ nibble x ++ nibble y ++ 0x0#4
  | .orReg x y => 0x8#4 ++ nibble x ++ nibble y ++ 0x1#4
  | .andReg x y => 0x8#4 ++ nibble x ++ nibble y ++ 0x2#4
  | .xorReg x y => 0x8#4 ++ nibble x ++ nibble y ++ 0x3#4
  | .addReg x y => 0x8#4 ++ nibble x ++ nibble y ++ 0x4#4
  | .subReg x y => 0x8#4 ++ nibble x ++ nibble y ++ 0x5#4
  | .shr x y => 0x8#4 ++ nibble x ++ nibble y ++ 0x6#4
  | .subnReg x y => 0x8#4 ++ nibble x ++ nibble y ++ 0x7#4
  | .shl x y => 0x8#4 ++ nibble x ++ nibble y ++ 0xE#4
  | .sneReg x y => 0x9#4 ++ nibble x ++ nibble y ++ 0x0#4
  | .ldI nnn => 0xA#4 ++ nnn
  | .jpV0 nnn => 0xB#4 ++ nnn
  | .rnd x kk => 0xC#4 ++ nibble x ++ kk
  | .drw x y n => 0xD#4 ++ nibble x ++ nibble y ++ nibble n
  | .skp x => 0xE#4 ++ nibble x ++ 0x9E#8
  | .sknp x => 0xE#4 ++ nibble x ++ 0xA1#8
  | .ldVxDt x => 0xF#4 ++ nibble x ++ 0x07#8
  | .ldVxK x => 0xF#4 ++ nibble x ++ 0x0A#8
  | .ldDtVx x => 0xF#4 ++ nibble x ++ 0x15#8
  | .ldStVx x => 0xF#4 ++ nibble x ++ 0x18#8
  | .addIVx x => 0xF#4 ++ nibble x ++ 0x1E#8
  | .ldFVx x => 0xF#4 ++ nibble x ++ 0x29#8
  | .ldBVx x => 0xF#4 ++ nibble x ++ 0x33#8
  | .storeRegs x => 0xF#4 ++ nibble x ++ 0x55#8
  | .loadRegs x => 0xF#4 ++ nibble x ++ 0x65#8
  | .unrecognized w => w

/-- The high byte of a word, stored first (20_memory.md R33). -/
def highByte (w : Word) : Byte := w.extractLsb' 8 8

/-- The low byte of a word, stored second (20_memory.md R33). -/
def lowByte (w : Word) : Byte := w.extractLsb' 0 8

/-- The instruction's two bytes as memory holds them. -/
def encode (i : Instr) : List Byte := [highByte (encodeWord i), lowByte (encodeWord i)]

/-- The instruction read from a word numbered as spec/opcode_table.json numbers it: laid out in memory's byte order and
given to the decoder. -/
def decodeTableWord (nbits w : Nat) : Option Instr :=
  let word : Word := .ofNat 16 (w % 2 ^ nbits)
  match decode [highByte word, lowByte word] with
  | .ok (i, _) => some i
  | .error _ => none

end Sys2Proof
end

