-- ==== Sys2Proof/Config.lean ====
section
/-! DEFINITION. What is fixed for the machine (00_scope.md section 4), the font parameter and the free random byte. -/

namespace Sys2Proof

/-- `MEM_SIZE`, in bytes (10_state.md R25). -/
abbrev Config.memSize : Nat := 4096

/-- `FONT_BASE`, the address of glyph 0 (10_state.md R24). -/
abbrev Config.fontBase : Nat := 0x050

/-- `PROG_BASE` and `PC_RESET` (20_memory.md R32, 10_state.md R23). -/
abbrev Config.progBase : Nat := 0x200

/-- `PROG_MAX_LEN`, in bytes (70_reset_and_hazards.md R147). -/
abbrev Config.progMaxLen : Nat := 3584

/-- `FONTSET`, five bytes a glyph, glyphs `0` to `F` (10_state.md R24).
PRESUMED, log entry 1, unsafe: the source gives no values; these are the spec's marked default (92_eei_decisions.md D12). -/
def Config.fontset : List Byte :=
  [0xF0, 0x90, 0x90, 0x90, 0xF0] ++ [0x20, 0x60, 0x20, 0x20, 0x70] ++
  [0xF0, 0x10, 0xF0, 0x80, 0xF0] ++ [0xF0, 0x10, 0xF0, 0x10, 0xF0] ++
  [0x90, 0x90, 0xF0, 0x10, 0x10] ++ [0xF0, 0x80, 0xF0, 0x10, 0xF0] ++
  [0xF0, 0x80, 0xF0, 0x90, 0xF0] ++ [0xF0, 0x10, 0x20, 0x40, 0x40] ++
  [0xF0, 0x90, 0xF0, 0x90, 0xF0] ++ [0xF0, 0x90, 0xF0, 0x10, 0xF0] ++
  [0xF0, 0x90, 0xF0, 0x90, 0x90] ++ [0xE0, 0x90, 0xE0, 0x90, 0xE0] ++
  [0xF0, 0x80, 0x80, 0x80, 0xF0] ++ [0xE0, 0x90, 0x90, 0x90, 0xE0] ++
  [0xF0, 0x80, 0xF0, 0x80, 0xF0] ++ [0xF0, 0x80, 0xF0, 0x80, 0x80]

/-- `rnd`, the free byte that the `n`-th draw of a run gives (41_alu.md R87, 92_eei_decisions.md D11).
It has no body, so nothing can be proved of its values.
DESIGN CHOICE, log entry 2: draws are numbered by `State.draws`; safe but for a claim that compares two draws of one number. -/
opaque Config.rnd : Nat → Byte

end Sys2Proof
end

