-- ==== Sys2Proof/Machine/State.lean ====
section
/-! DEFINITION. The machine's state: the twelve items of 10_state.md R10 and the model's own draw counter, as plain data;
its value after reset; and why a step can stop. -/

namespace Sys2Proof.Machine

/-- `memory` (10_state.md R25, 20_memory.md R30): address and byte pairs in one canonical form (`Memory.wf`, Ops.lean). -/
abbrev Memory := List Host.Cell

/-- `display` (10_state.md R19): 32 row words; `pixel[r][c]` is bit `63 - c` of row `r` (92_eei_decisions.md D16, log entry 5). -/
abbrev Display := Vector (BitVec 64) 32

/-- `FAULT.cause` (10_state.md R21), by the names of 60_exceptions.md R125; `FaultCause.code` (Ops.lean) gives the numbers. -/
inductive FaultCause where
  | noFault
  | fetchOutOfRange
  | dataOutOfRange
  | stackOverflow
  | stackUnderflow
  | keyIndexOutOfRange
  deriving DecidableEq, Repr

/-- The `FAULT` record (10_state.md R21). -/
structure FaultLatch where
  cause : FaultCause
  fpc : Word
  finfo : Word
  deriving DecidableEq, Repr

/-- The machine state (10_state.md R10). -/
structure State where
  /-- `memory`, 4096 bytes (R25). -/
  mem : Memory
  /-- `V[0..15]` (R11); `V[15]` is `VF` (R12). -/
  v : Vector Byte 16
  /-- `I` (R13). -/
  i : Word
  /-- `PC`, the byte address of the next instruction (R14). -/
  pc : Word
  /-- `SP`, 0 to 16, the next free slot (R16). -/
  sp : Fin 17
  /-- `stack[0..15]` (R16). -/
  stack : Vector Word 16
  /-- `DT` (R17). -/
  dt : Byte
  /-- `ST` (R17). -/
  st : Byte
  /-- `keys[0..15]`, true while pressed (R18). -/
  keys : Vector Bool 16
  /-- `pixel[0..31][0..63]` (R19). -/
  display : Display
  /-- `draw_flag` (R20). -/
  drawFlag : Bool
  /-- `FAULT` (R21). -/
  fault : FaultLatch
  /-- The model's own: how many bytes `Cxkk` has drawn, which numbers the free byte `Config.rnd` (R87, log entry 2). -/
  draws : Nat
  deriving DecidableEq, Repr

/-- Why `step` stops with a fault. A fault that the spec's rules raise is no such stop: it is a next state with `FAULT`
latched (60_exceptions.md R126). -/
inductive Fault where
  /-- Raised by `step` alone, when `FAULT.cause` is not 0: the event is not enabled and the machine executes nothing
  (00_scope.md R2, 60_exceptions.md R127). Safe: nothing is claimed to happen. Log entry 3. -/
  | stepNotEnabled
  deriving DecidableEq, Repr

/-- Why an instruction has no meaning in the model. -/
inductive Refusal where
  /-- Raised by `exec`'s refused arms, for an instruction the model does not cover yet; no arm is refused now. Safe. -/
  | notModelled (mnemonic : String)
  deriving DecidableEq, Repr

/-- The state after the `reset` event (10_state.md R23, 70_reset_and_hazards.md R145): every item 0, `PC = 0x200`,
`draw_flag = 1`, and memory with nothing listed, so that it reads as the font and zeros (`Memory.blank`, Ops.lean).
The draw counter starts a run at 0: DESIGN CHOICE, log entry 2; a later `reset` event keeps it (`resetEvent`, Events.lean). -/
def State.reset : State where
  mem := []
  v := Vector.replicate 16 0
  i := 0
  pc := 0x200
  sp := 0
  stack := Vector.replicate 16 0
  dt := 0
  st := 0
  keys := Vector.replicate 16 false
  display := Vector.replicate 32 0
  drawFlag := true
  fault := ⟨.noFault, 0, 0⟩
  draws := 0

end Sys2Proof.Machine
end

