-- ==== Sys2Proof/Machine/Ops.lean ====
section
/-! DEFINITION. The named operations the meanings share: memory, the return stack, the program counter, taking a fault,
fetching. -/

namespace Sys2Proof.Machine

/-- How an instruction or a step ends. -/
abbrev Result := Host.Outcome State Fault Refusal

/-! ### Memory (20_memory.md R30 to R38) -/

/-- What an address with no listed byte reads as: the contents after reset (10_state.md R23, R25), which is FONTSET at
0x050 to 0x09F and 0 elsewhere. -/
def Memory.blank (a : Nat) : Byte :=
  if Config.fontBase ≤ a then Config.fontset.getD (a - Config.fontBase) 0 else 0

/-- The canonical form: addresses strictly rising, all in 0..4095, no entry equal to what its address reads as unlisted. -/
abbrev Memory.wf (m : Memory) : Prop :=
  m.Pairwise (fun c d => c.1 < d.1) ∧ ∀ c ∈ m, c.1 < Config.memSize ∧ c.2 ≠ Memory.blank c.1

/-- `MemRead(addr, 1)` (R31). Every meaning range-checks before it reads (log entry 4). -/
def Memory.read : Memory → Nat → Byte
  | [], a => Memory.blank a
  | (k, b) :: m, a => if k = a then b else Memory.read m a

/-- Put a cell in its place among cells of rising addresses. -/
def Memory.insertCell (a : Nat) (b : Byte) : Memory → Memory
  | [] => [(a, b)]
  | (k, c) :: m => if a < k then (a, b) :: (k, c) :: m else (k, c) :: Memory.insertCell a b m

/-- `MemWrite(addr, 1, v)` (R31), keeping the canonical form. Every meaning range-checks before it writes; a write outside
the 4096 bytes, which no rule makes, changes nothing (log entry 4). -/
def Memory.write (m : Memory) (a : Nat) (b : Byte) : Memory :=
  if a < Config.memSize then
    let others : Memory := m.filter fun c => c.1 != a
    if b = Memory.blank a then others else Memory.insertCell a b others
  else m

/-- Byte writes at rising addresses from `a` (R38). -/
def Memory.writeBytes (m : Memory) (a : Nat) : List Byte → Memory
  | [] => m
  | b :: bs => Memory.writeBytes (m.write a b) (a + 1) bs

/-- The data range check (R35): `count` bytes from `base`, addresses computed without wrap, end at or below 4095; no bytes
always fit. -/
def dataFits (base count : Nat) : Bool := count == 0 || base + (count - 1) ≤ 4095

/-! ### The program counter (10_state.md R14, R15) -/

/-- `next`: `PC <- (PC + 2) mod 65536`. -/
def State.advance (s : State) : State := { s with pc := s.pc + 2 }

/-- `skip`: `PC <- (PC + 4) mod 65536` (40_control_flow.md R69). -/
def State.skip (s : State) : State := { s with pc := s.pc + 4 }

/-- `if c then skip else next`. -/
def State.skipIf (c : Bool) (s : State) : State := if c then s.skip else s.advance

/-- `PC <- target`. -/
def State.jumpTo (target : Word) (s : State) : State := { s with pc := target }

/-! ### The return stack (10_state.md R16) -/

/-- `stack[SP] <- PC ; SP <- SP + 1`. -/
def State.pushPc (s : State) (room : s.sp.val < 16) : State :=
  { s with stack := s.stack.set s.sp.val s.pc, sp := ⟨s.sp.val + 1, by omega⟩ }

/-- `SP <- SP - 1 ; PC <- stack[SP]`; the popped slot keeps its value. -/
def State.popPc (s : State) (live : 0 < s.sp.val) : State :=
  { s with sp := ⟨s.sp.val - 1, by omega⟩, pc := s.stack[s.sp.val - 1] }

/-! ### Taking a fault (60_exceptions.md R125 to R129) -/

/-- The numbers of `FAULT.cause` (R125), in its three bits (10_state.md R21). -/
def FaultCause.code : FaultCause → BitVec 3
  | .noFault => 0
  | .fetchOutOfRange => 1
  | .dataOutOfRange => 2
  | .stackOverflow => 3
  | .stackUnderflow => 4
  | .keyIndexOutOfRange => 5

/-- The state with `FAULT <- (cause, PC, info)` and "no other item of state" changed (R126). -/
def State.latchFault (cause : FaultCause) (info : Word) (s : State) : State :=
  { s with fault := ⟨cause, s.pc, info⟩ }

/-- `raise Fault(cause, info)` (R126): the event ends in the latched state. There is no vector and no return: only
`reset` leaves it (R128). -/
def raiseFault (cause : FaultCause) (info : Word) (s : State) : Result :=
  .next (s.latchFault cause info)

/-- The check of R35 on `count` bytes from `I`, before any effect: `after` if they fit, else the fault. -/
def checkData (count : Nat) (s after : State) : Result :=
  if dataFits s.i.toNat count then .next after else raiseFault .dataOutOfRange s.i s

/-! ### Fetching (20_memory.md R33, R34) -/

/-- The range check and the big-endian read at `PC`; `none` where the fetch faults. Any parity is fetched (R36). -/
def fetchWord (s : State) : Option Word :=
  if s.pc.toNat ≤ 0xFFE then
    some (wordOfBytes (s.mem.read s.pc.toNat) (s.mem.read (s.pc.toNat + 1)))
  else none

/-- An instruction word stored at `PC`, as a loader would leave it there. -/
def placeWord (s : State) (w : Word) : State :=
  { s with mem := s.mem.writeBytes s.pc.toNat [highByte w, lowByte w] }

end Sys2Proof.Machine
end

