-- ==== Sys2Proof/Machine/Operands.lean ====
section
/-! DEFINITION. The operand forms: a register, a zero-extended immediate, a block of registers at `I`, a key index. -/

namespace Sys2Proof.Machine

/-- `V[x]` (10_state.md R11). -/
def State.getV (s : State) (x : Reg) : Byte := s.v[x]

/-- `V[x] <- b`; `V[15]` is `VF` and has no separate storage (R11, R12). -/
def State.setV (x : Reg) (b : Byte) (s : State) : State := { s with v := s.v.set x b }

/-- `I <- w` (R13). -/
def State.setI (w : Word) (s : State) : State := { s with i := w }

/-- `zext_16` of a 12-bit immediate (30_encoding.md R48). -/
def zext12 (nnn : BitVec 12) : Word := nnn.setWidth 16

/-- `zext_16` of a byte. -/
def zext8 (b : Byte) : Word := b.setWidth 16

/-- `V[0]` to `V[x]`, the bytes `Fx55` stores from `I` up (42_index_memory.md R99). -/
def State.regsUpTo (s : State) (x : Reg) : List Byte := s.v.toList.take (x.val + 1)

/-- `V[0] <- MemRead(base)`, ..., for `count` registers in ascending order (42_index_memory.md R100). -/
def loadBlock (m : Memory) (base : Nat) : Nat → Vector Byte 16 → Vector Byte 16
  | 0, v => v
  | k + 1, v => (loadBlock m base k v).setIfInBounds k (m.read (base + k))

/-- The three BCD digits of a byte: hundreds, tens, units (42_index_memory.md R98). -/
def bcdDigits (b : Byte) : List Byte :=
  [.ofNat 8 (b.toNat / 100), .ofNat 8 (b.toNat / 10 % 10), .ofNat 8 (b.toNat % 10)]

/-- `V[x]` as a key index, with the check of 44_keys_timers.md R115, R116: the state `after` the key that is named, or the
fault. -/
def checkKey (x : Reg) (s : State) (after : Fin 16 → State) : Result :=
  if h : (s.getV x).toNat < 16 then .next (after ⟨(s.getV x).toNat, h⟩)
  else raiseFault .keyIndexOutOfRange (zext8 (s.getV x)) s

/-- The least index of a pressed key (44_keys_timers.md R117). -/
def leastKey (keys : Vector Bool 16) : Option (Fin 16) := (List.finRange 16).find? fun k => keys[k]

end Sys2Proof.Machine
end

