-- ==== Sys2Proof/Machine/Alu.lean ====
section
/-! DEFINITION. The meanings of the register load, arithmetic, logic, shift and random instructions (41_alu.md). Each row's
statements are performed one after another, the later reading the registers as the earlier left them (R75). -/

namespace Sys2Proof.Machine

/-- `6xkk` (R76). -/
def execLdImm (x : Reg) (kk : Byte) (s : State) : Result := .next (s.setV x kk).advance

/-- `7xkk` (R77): no flag. -/
def execAddImm (x : Reg) (kk : Byte) (s : State) : Result := .next (s.setV x (s.getV x + kk)).advance

/-- `8xy0` (R78). -/
def execLdReg (x y : Reg) (s : State) : Result := .next (s.setV x (s.getV y)).advance

/-- `8xy1` (R79): no flag. -/
def execOrReg (x y : Reg) (s : State) : Result := .next (s.setV x (s.getV x ||| s.getV y)).advance

/-- `8xy2` (R80): no flag. -/
def execAndReg (x y : Reg) (s : State) : Result := .next (s.setV x (s.getV x &&& s.getV y)).advance

/-- `8xy3` (R81): no flag. -/
def execXorReg (x y : Reg) (s : State) : Result := .next (s.setV x (s.getV x ^^^ s.getV y)).advance

/-- `8xy4` (R82): the sum is computed before either write, so with `x = 15` the result overwrites the flag. -/
def execAddReg (x y : Reg) (s : State) : Result :=
  let flagged := s.setV flagReg (carryFlag (s.getV x) (s.getV y))
  .next (flagged.setV x (s.getV x + s.getV y)).advance

/-- `8xy5` (R83): the flag is written first, and the difference reads the registers after it. -/
def execSubReg (x y : Reg) (s : State) : Result :=
  let flagged := s.setV flagReg (greaterFlag (s.getV x) (s.getV y))
  .next (flagged.setV x (flagged.getV x - flagged.getV y)).advance

/-- `8xy6` (R84): `V[x]` in place; `y` is ignored. -/
def execShr (x _y : Reg) (s : State) : Result :=
  let flagged := s.setV flagReg (lowBitFlag (s.getV x))
  .next (flagged.setV x (flagged.getV x >>> 1)).advance

/-- `8xy7` (R85): the flag is written first, and the difference reads the registers after it. -/
def execSubnReg (x y : Reg) (s : State) : Result :=
  let flagged := s.setV flagReg (greaterFlag (s.getV y) (s.getV x))
  .next (flagged.setV x (flagged.getV y - flagged.getV x)).advance

/-- `8xyE` (R86): `V[x]` in place; `y` is ignored. -/
def execShl (x _y : Reg) (s : State) : Result :=
  let flagged := s.setV flagReg (highBitFlag (s.getV x))
  .next (flagged.setV x (flagged.getV x <<< 1)).advance

/-- One byte drawn, and the counter past it (R87, log entry 2). -/
def State.drawByte (s : State) : Byte × State := (Config.rnd s.draws, { s with draws := s.draws + 1 })

/-- `Cxkk` (R87). -/
def execRnd (x : Reg) (kk : Byte) (s : State) : Result :=
  let (rnd, drawn) := s.drawByte
  .next (drawn.setV x (rnd &&& kk)).advance

end Sys2Proof.Machine
end

