-- ==== Sys2Proof/Machine/ControlFlow.lean ====
section
/-! DEFINITION. The meanings of the control transfer instructions and of the unrecognized word (40_control_flow.md). -/

namespace Sys2Proof.Machine

/-- `00EE` (R61). -/
def execRet (s : State) : Result :=
  if live : 0 < s.sp.val then .next (s.popPc live).advance else raiseFault .stackUnderflow 0 s

/-- `1nnn` (R62). -/
def execJp (nnn : BitVec 12) (s : State) : Result := .next (s.jumpTo (zext12 nnn))

/-- `2nnn` (R63): what is pushed is the address of the call itself. -/
def execCall (nnn : BitVec 12) (s : State) : Result :=
  if room : s.sp.val < 16 then .next ((s.pushPc room).jumpTo (zext12 nnn)) else raiseFault .stackOverflow 16 s

/-- `3xkk` (R64). -/
def execSeImm (x : Reg) (kk : Byte) (s : State) : Result := .next (s.skipIf (s.getV x == kk))

/-- `4xkk` (R65). -/
def execSneImm (x : Reg) (kk : Byte) (s : State) : Result := .next (s.skipIf (s.getV x != kk))

/-- `5xy0` (R66). -/
def execSeReg (x y : Reg) (s : State) : Result := .next (s.skipIf (s.getV x == s.getV y))

/-- `9xy0` (R67). -/
def execSneReg (x y : Reg) (s : State) : Result := .next (s.skipIf (s.getV x != s.getV y))

/-- `Bnnn` (R68): the offset is always `V[0]`, and the sum is not cut to 12 bits. -/
def execJpV0 (nnn : BitVec 12) (s : State) : Result := .next (s.jumpTo (zext12 nnn + zext8 (s.getV 0)))

/-- A word that matches no row (R71): a no-op that advances `PC` by 2. -/
def execUnrecognized (_w : Word) (s : State) : Result := .next s.advance

end Sys2Proof.Machine
end

