-- ==== Sys2Proof/Machine/Display.lean ====
section
/-! DEFINITION. The display and the sprite rasterizer: the per-pixel form, which is the normative one, the meanings of
`00E0` and `Dxyn` over it, and the row-word form as a second formulation (43_display.md). -/

namespace Sys2Proof.Machine

/-- `pixel[r][c]`, the bit `63 - c` of row word `r` (10_state.md R19). -/
def Display.pixel (d : Display) (r : Fin 32) (c : Fin 64) : Bool := d[r].getMsbD c

/-- The row word with column `c` alone set. -/
def columnBit (c : Fin 64) : BitVec 64 := BitVec.twoPow 64 (63 - c.val)

/-- `pixel[r][c] <- pixel[r][c] ^ 1`. -/
def Display.toggle (d : Display) (r : Fin 32) (c : Fin 64) : Display := d.set r (d[r] ^^^ columnBit c)

/-- The display row that sprite row `r` reaches (R105): wrapped for every pixel separately. -/
def spriteRow (cy r : Nat) : Fin 32 := .ofNat 32 (cy + r)

/-- The display column that sprite bit `b` reaches (R105). -/
def spriteCol (cx b : Nat) : Fin 64 := .ofNat 64 (cx + b)

/-- What drawing updates: the display, and whether a collision has been seen, which ends up in `VF` (R107). -/
structure Raster where
  display : Display
  hit : Bool
  deriving DecidableEq, Repr

/-- One sprite bit, `b = 0` the most significant (R107): a 1 records a collision, never unset, and toggles its pixel. -/
def drawBit (cx cy r : Nat) (byte : Byte) (b : Nat) (t : Raster) : Raster :=
  if byte.getMsbD b then
    { display := t.display.toggle (spriteRow cy r) (spriteCol cx b)
      hit := t.hit || t.display.pixel (spriteRow cy r) (spriteCol cx b) }
  else t

/-- One sprite row, bit by bit (R107). -/
def drawRow (cx cy r : Nat) (byte : Byte) (t : Raster) : Raster :=
  (List.range 8).foldl (fun t b => drawBit cx cy r byte b t) t

/-- `n` sprite rows, read from rising addresses (R107). -/
def drawSprite (m : Memory) (base cx cy n : Nat) (t : Raster) : Raster :=
  (List.range n).foldl (fun t r => drawRow cx cy r (m.read (base + r)) t) t

/-- `00E0` (R106): `draw_flag` is set even if the display was blank. -/
def execCls (s : State) : Result :=
  .next { s with display := Vector.replicate 32 0, drawFlag := true }.advance

/-- `Dxyn` (R107): the coordinates are latched before `VF` is written; `draw_flag` is set unconditionally. -/
def execDrw (x y : Reg) (n : Fin 16) (s : State) : Result :=
  let drawn := drawSprite s.mem s.i.toNat (s.getV x).toNat (s.getV y).toNat n.val ⟨s.display, false⟩
  checkData n.val s { s.setV flagReg (flagByte drawn.hit) with display := drawn.display, drawFlag := true }.advance

/-! ### The row-word form (R108) -/

/-- The eight sprite bits at columns `cx` to `cx + 7` modulo 64. -/
def spriteMask (byte : Byte) (cx : Nat) : BitVec 64 := (byte.setWidth 64 <<< 56).rotateRight (cx % 64)

/-- One sprite row in one AND and one XOR. -/
def drawRowWord (cx cy r : Nat) (byte : Byte) (t : Raster) : Raster :=
  let m := spriteMask byte cx
  let row := spriteRow cy r
  { display := t.display.set row (t.display[row] ^^^ m), hit := t.hit || t.display[row] &&& m != 0 }

end Sys2Proof.Machine
end

