-- ==== Sys2Proof/Machine/IndexMemory.lean ====
section
/-! DEFINITION. The meanings of the index register and memory instructions (42_index_memory.md). The one data addressing
mode is `I` plus an ascending offset, without wrap and without update of `I` (R101). -/

namespace Sys2Proof.Machine

/-- `Annn` (R95). -/
def execLdI (nnn : BitVec 12) (s : State) : Result := .next (s.setI (zext12 nnn)).advance

/-- `Fx1E` (R96): 16-bit wrap, no flag. -/
def execAddIVx (x : Reg) (s : State) : Result := .next (s.setI (s.i + zext8 (s.getV x))).advance

/-- `Fx29` (R97): `V[x]` whole, not cut to its low four bits. -/
def execLdFVx (x : Reg) (s : State) : Result :=
  .next (s.setI (.ofNat 16 (Config.fontBase + 5 * (s.getV x).toNat))).advance

/-- `Fx33` (R98). -/
def execLdBVx (x : Reg) (s : State) : Result :=
  checkData 3 s { s with mem := s.mem.writeBytes s.i.toNat (bcdDigits (s.getV x)) }.advance

/-- `Fx55` (R99): `V[0]` to `V[x]` inclusive. -/
def execStoreRegs (x : Reg) (s : State) : Result :=
  checkData (x.val + 1) s { s with mem := s.mem.writeBytes s.i.toNat (s.regsUpTo x) }.advance

/-- `Fx65` (R100): `V[0]` to `V[x]` inclusive. -/
def execLoadRegs (x : Reg) (s : State) : Result :=
  checkData (x.val + 1) s { s with v := loadBlock s.mem s.i.toNat (x.val + 1) s.v }.advance

end Sys2Proof.Machine
end

