-- ==== Sys2Proof/Machine/KeysTimers.lean ====
section
/-! DEFINITION. The meanings of the keypad and timer instructions (44_keys_timers.md). The engine reads the keys as they are
at this step and never writes them (10_state.md R18). -/

namespace Sys2Proof.Machine

/-- `Ex9E` (R115). -/
def execSkp (x : Reg) (s : State) : Result := checkKey x s fun k => s.skipIf s.keys[k]

/-- `ExA1` (R116). -/
def execSknp (x : Reg) (s : State) : Result := checkKey x s fun k => s.skipIf (!s.keys[k])

/-- `Fx07` (R118). -/
def execLdVxDt (x : Reg) (s : State) : Result := .next (s.setV x s.dt).advance

/-- `Fx0A` (R117): the least pressed key, or, with no key down, a step that changes nothing, so that the same address is
fetched again. -/
def execLdVxK (x : Reg) (s : State) : Result :=
  match leastKey s.keys with
  | some k => .next (s.setV x (.ofNat 8 k.val)).advance
  | none => .next s

/-- `Fx15` (R119). -/
def execLdDtVx (x : Reg) (s : State) : Result := .next { s with dt := s.getV x }.advance

/-- `Fx18` (R120). -/
def execLdStVx (x : Reg) (s : State) : Result := .next { s with st := s.getV x }.advance

end Sys2Proof.Machine
end

