-- ==== Sys2Proof/Machine/Step.lean ====
section
/-! DEFINITION. One `step` event of the ENGINE (00_scope.md R2), and placing the word it fetches next. -/

namespace Sys2Proof.Machine

/-- Not enabled while `FAULT.cause` is not 0 (60_exceptions.md R127); else fetch, whose range check comes first (R129,
20_memory.md R34), decode, execute. The fetch does not advance `PC`. -/
def step (s : State) : Host.Outcome State Fault Refusal :=
  if s.fault.cause = .noFault then
    match fetchWord s with
    | some w => exec (decodeWord w) s
    | none => raiseFault .fetchOutOfRange s.pc s
  else .fault .stepNotEnabled

/-- `s` with an instruction word, numbered as spec/opcode_table.json numbers it, stored at `PC`, where `step` fetches. It
stands for the load of a program from outside (log entry 10) and changes nothing else, so `step` runs the word where
`PC` is at most 0xFFE and no fault is latched. -/
def State.withFetchWord (s : State) (nbits w : Nat) : State := placeWord s (.ofNat 16 (w % 2 ^ nbits))

end Sys2Proof.Machine
end

