-- ==== Sys2Proof/Machine/Events.lean ====
section
/-! DEFINITION. The interface events of 00_scope.md R1 beside `step`, and runs as lists of events: any sequence of enabled
events is a legal execution (R1, R3). -/

namespace Sys2Proof.Machine

/-- One decrementer, which saturates at 0 (44_keys_timers.md R121). -/
def countDown (t : Byte) : Byte := if 0 < t.toNat then t - 1 else t

/-- `tick` (R121). -/
def tick (s : State) : State := { s with dt := countDown s.dt, st := countDown s.st }

/-- `set_key(k, b)` (60_exceptions.md R137). -/
def setKey (k : Fin 16) (pressed : Bool) (s : State) : State := { s with keys := s.keys.set k pressed }

/-- `draw_ack` (60_exceptions.md R139). -/
def drawAck (s : State) : State := { s with drawFlag := false }

/-- What `read_display` observes (60_exceptions.md R138): the row words and `draw_flag`. -/
def readDisplay (s : State) : Display × Bool := (s.display, s.drawFlag)

/-- What `read_ST` observes (60_exceptions.md R140). -/
def readST (s : State) : Byte := s.st

/-- `reset` (70_reset_and_hazards.md R145): every item of R10 at its reset value. The draw counter is no item of R10 and goes
on, so that no byte drawn after a reset is bound to one drawn before it (41_alu.md R87, log entry 2). -/
def resetEvent (s : State) : State := { State.reset with draws := s.draws }

/-- What `load_program` reports to its caller (70_reset_and_hazards.md R147). -/
inductive LoadReport where
  | loaded
  | programTooLarge
  deriving DecidableEq, Repr

/-- `load_program(bytes)` (R147): the length is checked before any write. -/
def loadProgram (bytes : List Byte) (s : State) : LoadReport × State :=
  if bytes.length > Config.progMaxLen then (.programTooLarge, s)
  else (.loaded, { s with mem := s.mem.writeBytes Config.progBase bytes })

/-- An interface event (00_scope.md R1). The byte `rnd` of `step` is the free value `Config.rnd` (log entry 2). -/
inductive Event where
  | step
  | tick
  | reset
  | loadProgram (bytes : List Byte)
  | setKey (k : Fin 16) (pressed : Bool)
  | readDisplay
  | drawAck
  | readST
  deriving DecidableEq, Repr

/-- What the agent that performs an event sees. -/
inductive Observation where
  | nothing
  | loadReport (r : LoadReport)
  | displayed (d : Display) (drawFlag : Bool)
  | soundTimer (st : Byte)
  deriving DecidableEq, Repr

/-- One event: the state after it and what its agent sees, or `none` where the event is not enabled, which is `step` alone,
while a fault is latched (R1, R127). -/
def Event.apply (e : Event) (s : State) : Option (State × Observation) :=
  match e with
  | .step =>
    match Machine.step s with
    | .next t => some (t, .nothing)
    | .fault _ => none
    | .refused _ => none
  | .tick => some (Machine.tick s, .nothing)
  | .reset => some (Machine.resetEvent s, .nothing)
  | .loadProgram bytes => some ((Machine.loadProgram bytes s).2, .loadReport (Machine.loadProgram bytes s).1)
  | .setKey k pressed => some (Machine.setKey k pressed s, .nothing)
  | .readDisplay => some (s, .displayed (Machine.readDisplay s).1 (Machine.readDisplay s).2)
  | .drawAck => some (Machine.drawAck s, .nothing)
  | .readST => some (s, .soundTimer (Machine.readST s))

/-- A run: the state after a list of events, each enabled where it stands. -/
def runEvents : List Event → State → Option State
  | [], s => some s
  | e :: es, s => match e.apply s with
    | some (t, _) => runEvents es t
    | none => none

end Sys2Proof.Machine
end

