-- ==== Sys2Proof/Safety.lean ====
section
/-! DEFINITION. The terms in which claims speak of runs: a state with no fault, the invariant of every reachable state, a
terminal state. -/

namespace Sys2Proof.Machine

/-- No fault is latched, so `step` is enabled (60_exceptions.md R127). -/
abbrev State.unfaulted (s : State) : Prop := s.fault.cause = .noFault

/-- Every live stack entry is an address a fetch succeeded at (10_state.md R22). -/
abbrev State.stackOk (s : State) : Prop := ∀ j : Fin 16, j.val < s.sp.val → s.stack[j].toNat ≤ 0xFFE

/-- The latch is all zero, or holds the `PC` at which the machine stopped (60_exceptions.md R125, R126). -/
abbrev State.latchOk (s : State) : Prop :=
  (s.fault.cause = .noFault → s.fault.fpc = 0 ∧ s.fault.finfo = 0) ∧ (s.fault.cause ≠ .noFault → s.fault.fpc = s.pc)

/-- The invariant of every reachable state (10_state.md R22), with the canonical form of memory and the latch. The ranges of
`V`, `DT`, `ST`, `I`, `SP` and `FAULT.cause` are their types'. -/
abbrev State.Inv (s : State) : Prop :=
  s.mem.wf ∧ s.pc.toNat ≤ 0x10FE ∧ s.stackOk ∧ s.latchOk

/-- A terminal state (70_reset_and_hazards.md R149): no fault latched, and at `PC` a jump to itself. -/
abbrev State.terminal (s : State) : Prop :=
  s.unfaulted ∧ ∃ nnn : BitVec 12, (fetchWord s).map decodeWord = some (.jp nnn) ∧ s.pc = zext12 nnn

end Sys2Proof.Machine
end

