-- ==== Sys2Proof/Certificates/Slice0/Obligations.lean ====
section
/-! DEFINITION. The statements for the provers. A result is stated as the next state's fields over the old state's, with the
frame as an equation `t = { s with ... }` that names every item that may differ. -/

open Sys2Proof Sys2Proof.Machine

/-! ### Reset and the encoding -/

/-- 10_state.md R23 and 70_reset_and_hazards.md R145: every item of state after the `reset` event, from any state. FONTSET
is the parameter of R24; nothing is said of its values (log entry 1). The draw counter, which is no item of R10, goes on: the
model's choice (log entry 2). -/
def Obligations.ResetGivesTheStatedValues : Prop :=
  ∀ s : State, ∃ t : State, Event.reset.apply s = some (t, .nothing) ∧ t = { State.reset with draws := s.draws } ∧
    (∀ j < 80, t.mem.read (0x050 + j) = Config.fontset.getD j 0) ∧
    (∀ a < 4096, a < 0x050 ∨ 0x09F < a → t.mem.read a = 0) ∧
    (∀ x : Fin 16, t.v[x] = 0) ∧ t.i = 0 ∧ t.pc = 0x200 ∧ t.sp.val = 0 ∧ (∀ j : Fin 16, t.stack[j] = 0) ∧
    t.dt = 0 ∧ t.st = 0 ∧ (∀ k : Fin 16, t.keys[k] = false) ∧ (∀ r c, t.display.pixel r c = false) ∧
    t.drawFlag = true ∧ t.fault = ⟨.noFault, 0, 0⟩

/-- Words written out in 95_test_vectors.md sections 2.1, 2.2, 2.5 and 2.6 decode to the instructions named there. -/
def Obligations.WrittenOutWordsDecode : Prop :=
  decodeWord 0xD7A5 = .drw 7 0xA 5 ∧ decodeWord 0x8AB6 = .shr 0xA 0xB ∧ decodeWord 0xF01E = .addIVx 0 ∧
  decodeWord 0x00E0 = .cls ∧ decodeWord 0x00E1 = .unrecognized 0x00E1 ∧ decodeWord 0x1ABC = .jp 0xABC ∧
  decodeWord 0x6A37 = .ldImm 0xA 0x37 ∧ decodeWord 0xE49E = .skp 4

/-- 30_encoding.md R46: the fields of a word given by its four hexadecimal digits. -/
def Obligations.FieldsAreTheWordsDigits : Prop :=
  ∀ op x y n : BitVec 4,
    fieldX (op ++ x ++ y ++ n) = x.toFin ∧ fieldY (op ++ x ++ y ++ n) = y.toFin ∧
    fieldN (op ++ x ++ y ++ n) = n.toFin ∧ fieldKK (op ++ x ++ y ++ n) = y ++ n ∧
    fieldNNN (op ++ x ++ y ++ n) = x ++ y ++ n

/-- 30_encoding.md R49: at most one row accepts a word; the row that does gives the instruction; a word that none accepts
is `UNRECOGNIZED`. -/
def Obligations.DecodingIsTotalAndUnambiguous : Prop :=
  ∀ w : Word, (opcodeTable.filter fun r => r.accepts w).length ≤ 1 ∧
    (∀ r ∈ opcodeTable, w &&& r.mask = r.pattern → decodeWord w = r.build w) ∧
    ((∀ r ∈ opcodeTable, w &&& r.mask ≠ r.pattern) → decodeWord w = .unrecognized w)

/-- 30_encoding.md R50: what each of the 34 rows' (mask, match) pairs decodes to, and the default row. -/
def Obligations.OpcodeMapRowsDecode : Prop :=
  ∀ w : Word,
    (w &&& 0xFFFF#16 = 0x00E0#16 → decodeWord w = .cls) ∧ (w &&& 0xFFFF#16 = 0x00EE#16 → decodeWord w = .ret) ∧
    (w &&& 0xF000#16 = 0x1000#16 → decodeWord w = .jp (fieldNNN w)) ∧
    (w &&& 0xF000#16 = 0x2000#16 → decodeWord w = .call (fieldNNN w)) ∧
    (w &&& 0xF000#16 = 0x3000#16 → decodeWord w = .seImm (fieldX w) (fieldKK w)) ∧
    (w &&& 0xF000#16 = 0x4000#16 → decodeWord w = .sneImm (fieldX w) (fieldKK w)) ∧
    (w &&& 0xF00F#16 = 0x5000#16 → decodeWord w = .seReg (fieldX w) (fieldY w)) ∧
    (w &&& 0xF000#16 = 0x6000#16 → decodeWord w = .ldImm (fieldX w) (fieldKK w)) ∧
    (w &&& 0xF000#16 = 0x7000#16 → decodeWord w = .addImm (fieldX w) (fieldKK w)) ∧
    (w &&& 0xF00F#16 = 0x8000#16 → decodeWord w = .ldReg (fieldX w) (fieldY w)) ∧
    (w &&& 0xF00F#16 = 0x8001#16 → decodeWord w = .orReg (fieldX w) (fieldY w)) ∧
    (w &&& 0xF00F#16 = 0x8002#16 → decodeWord w = .andReg (fieldX w) (fieldY w)) ∧
    (w &&& 0xF00F#16 = 0x8003#16 → decodeWord w = .xorReg (fieldX w) (fieldY w)) ∧
    (w &&& 0xF00F#16 = 0x8004#16 → decodeWord w = .addReg (fieldX w) (fieldY w)) ∧
    (w &&& 0xF00F#16 = 0x8005#16 → decodeWord w = .subReg (fieldX w) (fieldY w)) ∧
    (w &&& 0xF00F#16 = 0x8006#16 → decodeWord w = .shr (fieldX w) (fieldY w)) ∧
    (w &&& 0xF00F#16 = 0x8007#16 → decodeWord w = .subnReg (fieldX w) (fieldY w)) ∧
    (w &&& 0xF00F#16 = 0x800E#16 → decodeWord w = .shl (fieldX w) (fieldY w)) ∧
    (w &&& 0xF00F#16 = 0x9000#16 → decodeWord w = .sneReg (fieldX w) (fieldY w)) ∧
    (w &&& 0xF000#16 = 0xA000#16 → decodeWord w = .ldI (fieldNNN w)) ∧
    (w &&& 0xF000#16 = 0xB000#16 → decodeWord w = .jpV0 (fieldNNN w)) ∧
    (w &&& 0xF000#16 = 0xC000#16 → decodeWord w = .rnd (fieldX w) (fieldKK w)) ∧
    (w &&& 0xF000#16 = 0xD000#16 → decodeWord w = .drw (fieldX w) (fieldY w) (fieldN w)) ∧
    (w &&& 0xF0FF#16 = 0xE09E#16 → decodeWord w = .skp (fieldX w)) ∧
    (w &&& 0xF0FF#16 = 0xE0A1#16 → decodeWord w = .sknp (fieldX w)) ∧
    (w &&& 0xF0FF#16 = 0xF007#16 → decodeWord w = .ldVxDt (fieldX w)) ∧
    (w &&& 0xF0FF#16 = 0xF00A#16 → decodeWord w = .ldVxK (fieldX w)) ∧
    (w &&& 0xF0FF#16 = 0xF015#16 → decodeWord w = .ldDtVx (fieldX w)) ∧
    (w &&& 0xF0FF#16 = 0xF018#16 → decodeWord w = .ldStVx (fieldX w)) ∧
    (w &&& 0xF0FF#16 = 0xF01E#16 → decodeWord w = .addIVx (fieldX w)) ∧
    (w &&& 0xF0FF#16 = 0xF029#16 → decodeWord w = .ldFVx (fieldX w)) ∧
    (w &&& 0xF0FF#16 = 0xF033#16 → decodeWord w = .ldBVx (fieldX w)) ∧
    (w &&& 0xF0FF#16 = 0xF055#16 → decodeWord w = .storeRegs (fieldX w)) ∧
    (w &&& 0xF0FF#16 = 0xF065#16 → decodeWord w = .loadRegs (fieldX w)) ∧
    ((∀ r ∈ opcodeTable, w &&& r.mask ≠ r.pattern) → decodeWord w = .unrecognized w)

/-- 30_encoding.md R51, which the spec marks as derived: the unrecognized words are exactly the six sets, by the word's four digits. -/
def Obligations.UnrecognizedWordsAreTheSixSets : Prop :=
  ∀ op x y n : BitVec 4,
    decodeWord (op ++ x ++ y ++ n) = .unrecognized (op ++ x ++ y ++ n) ↔
      (op = 0x0 ∧ x ++ y ++ n ≠ 0x0E0#12 ∧ x ++ y ++ n ≠ 0x0EE#12) ∨ (op = 0x5 ∧ n ≠ 0) ∨
      (op = 0x8 ∧ n ∈ [0x8#4, 0x9#4, 0xA#4, 0xB#4, 0xC#4, 0xD#4, 0xF#4]) ∨ (op = 0x9 ∧ n ≠ 0) ∨
      (op = 0xE ∧ y ++ n ∉ [0x9E#8, 0xA1#8]) ∨
      (op = 0xF ∧ y ++ n ∉ [0x07#8, 0x0A#8, 0x15#8, 0x18#8, 0x1E#8, 0x29#8, 0x33#8, 0x55#8, 0x65#8])

/-- The decoder reads back what the encoder wrote, for every well-formed instruction with every operand, and leaves the
bytes after it (30_encoding.md R45, R50). -/
def Obligations.DecodeReadsBackEncode : Prop :=
  ∀ (i : Instr) (rest : List Byte), i.wellFormed = true → decode (encode i ++ rest) = .ok (i, rest)

/-- The encoder writes back what the decoder read, for every word, and what the decoder gives is well formed. -/
def Obligations.EncodeWritesBackDecode : Prop :=
  ∀ w : Word, encodeWord (decodeWord w) = w ∧ (decodeWord w).wellFormed = true

/-! ### The step, its fetch and its faults -/

/-- 00_scope.md R2, 20_memory.md R33: with no fault latched and the two bytes at `PC` in memory, a step is the meaning of
the instruction they decode to, and nothing is added around it. -/
def Obligations.StepRunsTheDecodedInstruction : Prop :=
  ∀ (s : State) (i : Instr) (rest : List Byte), s.unfaulted → s.pc.toNat ≤ 0xFFE →
    decode [s.mem.read s.pc.toNat, s.mem.read (s.pc.toNat + 1)] = .ok (i, rest) → step s = exec i s

/-- 20_memory.md R34: the fetch range check, on both sides of its bound. -/
def Obligations.FetchBeyondMemoryFaults : Prop :=
  ∀ s : State, s.unfaulted →
    (0xFFE < s.pc.toNat → step s = .next { s with fault := ⟨.fetchOutOfRange, s.pc, s.pc⟩ }) ∧
    (s.pc.toNat ≤ 0xFFE →
      step s = exec (decodeWord (s.mem.read s.pc.toNat ++ s.mem.read (s.pc.toNat + 1))) s)

/-- 60_exceptions.md R127: while a fault is latched no step is enabled, every other event is, and only `reset` changes the
latch. That a step which is not enabled answers `stepNotEnabled` is the model's choice (log entry 3). -/
def Obligations.FaultDisablesStepAlone : Prop :=
  ∀ s : State, ¬ s.unfaulted →
    step s = .fault .stepNotEnabled ∧ Event.step.apply s = none ∧
    ∀ e : Event, e ≠ .step →
      ∃ t o, e.apply s = some (t, o) ∧ (e ≠ .reset → t.fault = s.fault) ∧ (e = .reset → t.unfaulted)

/-- 60_exceptions.md R127, R128: over any run without `reset` a latched fault stays, and so does everything the agents
outside the engine do not write. -/
def Obligations.LatchedFaultIsStickyOverRuns : Prop :=
  ∀ (es : List Event) (s t : State), ¬ s.unfaulted → Event.reset ∉ es → runEvents es s = some t →
    t.fault = s.fault ∧ t.v = s.v ∧ t.i = s.i ∧ t.pc = s.pc ∧ t.sp = s.sp ∧ t.stack = s.stack ∧
    t.display = s.display

/-- 60_exceptions.md R125, R126: the causes' codes, and every fault: who raises it, exactly on what condition, what it
records, and that nothing but the latch changes. -/
def Obligations.FaultsAreThoseOfTheTable : Prop :=
  (FaultCause.noFault.code = 0 ∧ FaultCause.fetchOutOfRange.code = 1 ∧ FaultCause.dataOutOfRange.code = 2 ∧
    FaultCause.stackOverflow.code = 3 ∧ FaultCause.stackUnderflow.code = 4 ∧ FaultCause.keyIndexOutOfRange.code = 5) ∧
  (∀ s : State, s.unfaulted → 0xFFE < s.pc.toNat →
    step s = .next { s with fault := ⟨.fetchOutOfRange, s.pc, s.pc⟩ }) ∧
  ∀ (i : Instr) (s t : State), s.unfaulted → exec i s = .next t →
    match i with
    | .drw _ _ n =>
      if 1 ≤ n.val ∧ 4095 < s.i.toNat + n.val - 1 then t = { s with fault := ⟨.dataOutOfRange, s.pc, s.i⟩ }
      else t.fault = s.fault
    | .ldBVx _ =>
      if 4095 < s.i.toNat + 2 then t = { s with fault := ⟨.dataOutOfRange, s.pc, s.i⟩ } else t.fault = s.fault
    | .storeRegs x | .loadRegs x =>
      if 4095 < s.i.toNat + x.val then t = { s with fault := ⟨.dataOutOfRange, s.pc, s.i⟩ } else t.fault = s.fault
    | .call _ => if s.sp.val = 16 then t = { s with fault := ⟨.stackOverflow, s.pc, 16⟩ } else t.fault = s.fault
    | .ret => if s.sp.val = 0 then t = { s with fault := ⟨.stackUnderflow, s.pc, 0⟩ } else t.fault = s.fault
    | .skp x | .sknp x =>
      if 15 < s.v[x].toNat then t = { s with fault := ⟨.keyIndexOutOfRange, s.pc, s.v[x].setWidth 16⟩ }
      else t.fault = s.fault
    | _ => t.fault = s.fault

/-- 20_memory.md R35: the four data instructions whose footprint passes 4095 latch the fault before any other change; where
it does not they complete, and so does `Dxyn` with `n = 0`, whatever `I` is. -/
def Obligations.DataBeyondMemoryFaultsBeforeAnyEffect : Prop :=
  ∀ (s : State) (i : Instr) (last : Nat),
    ((∃ x y n, i = .drw x y n ∧ 1 ≤ n.val ∧ last = s.i.toNat + n.val - 1) ∨
      (∃ x, i = .ldBVx x ∧ last = s.i.toNat + 2) ∨
      ∃ x, (i = .storeRegs x ∨ i = .loadRegs x) ∧ last = s.i.toNat + x.val) ∨
    (∃ x y, i = .drw x y 0 ∧ last = 0) →
    (4095 < last → exec i s = .next { s with fault := ⟨.dataOutOfRange, s.pc, s.i⟩ }) ∧
    (last ≤ 4095 → ∃ t, exec i s = .next t ∧ t.fault = s.fault ∧ t.pc = s.pc + 2)

/-- 30_encoding.md R51: no word traps as illegal; the step of every state without a latched fault answers a next state, and
an unrecognized word raises nothing. -/
def Obligations.EveryEnabledStepCompletes : Prop :=
  ∀ s : State, s.unfaulted →
    (∃ t, step s = .next t) ∧
    ∀ w, fetchWord s = some w → decodeWord w = .unrecognized w → step s = .next { s with pc := s.pc + 2 }

/-! ### Control flow -/

/-- 40_control_flow.md R61. -/
def Obligations.ReturnPopsAndAddsTwo : Prop :=
  ∀ s : State,
    (s.sp.val = 0 → exec .ret s = .next { s with fault := ⟨.stackUnderflow, s.pc, 0⟩ }) ∧
    ∀ j : Fin 16, s.sp.val = j.val + 1 →
      ∃ t, exec .ret s = .next t ∧ t.sp.val = j.val ∧ t.pc = s.stack[j] + 2 ∧
        t = { s with sp := t.sp, pc := t.pc }

/-- 40_control_flow.md R62. -/
def Obligations.JumpSetsPc : Prop :=
  ∀ (nnn : BitVec 12) (s : State),
    ∃ t, exec (.jp nnn) s = .next t ∧ t.pc.toNat = nnn.toNat ∧ t = { s with pc := t.pc }

/-- 40_control_flow.md R63: the pushed value is the call's own address. -/
def Obligations.CallPushesItsOwnAddress : Prop :=
  ∀ (nnn : BitVec 12) (s : State),
    (s.sp.val = 16 → exec (.call nnn) s = .next { s with fault := ⟨.stackOverflow, s.pc, 16⟩ }) ∧
    ∀ j : Fin 16, s.sp.val = j.val →
      ∃ t, exec (.call nnn) s = .next t ∧ t.stack[j] = s.pc ∧ (∀ k : Fin 16, k ≠ j → t.stack[k] = s.stack[k]) ∧
        t.sp.val = j.val + 1 ∧ t.pc.toNat = nnn.toNat ∧ t = { s with stack := t.stack, sp := t.sp, pc := t.pc }

/-- 40_control_flow.md R61, R63, and the source's round trip (95_test_vectors.md S6): a return directly after a call leads
past the call, and only the slot that was pushed differs. -/
def Obligations.ReturnUndoesCall : Prop :=
  ∀ (nnn : BitVec 12) (s : State) (j : Fin 16), s.sp.val = j.val →
    ∃ t u, exec (.call nnn) s = .next t ∧ exec .ret t = .next u ∧
      u = { s with pc := s.pc + 2, stack := u.stack } ∧ u.stack[j] = s.pc ∧
      ∀ k : Fin 16, k ≠ j → u.stack[k] = s.stack[k]

/-- 40_control_flow.md R64 to R67: each skip's condition; nothing but `PC` changes. -/
def Obligations.SkipsFollowTheirComparison : Prop :=
  ∀ (x y : Reg) (kk : Byte) (s : State),
    exec (.seImm x kk) s = .next { s with pc := if s.v[x] = kk then s.pc + 4 else s.pc + 2 } ∧
    exec (.sneImm x kk) s = .next { s with pc := if s.v[x] ≠ kk then s.pc + 4 else s.pc + 2 } ∧
    exec (.seReg x y) s = .next { s with pc := if s.v[x] = s.v[y] then s.pc + 4 else s.pc + 2 } ∧
    exec (.sneReg x y) s = .next { s with pc := if s.v[x] ≠ s.v[y] then s.pc + 4 else s.pc + 2 }

/-- 40_control_flow.md R68: the sum is not reduced to 12 bits and never wraps. -/
def Obligations.OffsetJumpAddsV0 : Prop :=
  ∀ (nnn : BitVec 12) (s : State),
    ∃ t, exec (.jpV0 nnn) s = .next t ∧ t.pc.toNat = nnn.toNat + (s.v[(0 : Fin 16)]).toNat ∧
      t = { s with pc := t.pc }

/-- 40_control_flow.md R71: an unrecognized word changes nothing but `PC`. -/
def Obligations.UnrecognizedWordIsANoOp : Prop :=
  ∀ (w : Word) (s : State), exec (.unrecognized w) s = .next { s with pc := s.pc + 2 }

/-- 10_state.md R15: the new `PC` of every instruction; unchanged where the instruction faults. -/
def Obligations.PcChangesAsTheTableSays : Prop :=
  ∀ (i : Instr) (s t : State), s.unfaulted → exec i s = .next t →
    (¬ t.unfaulted → t.pc = s.pc) ∧
    (t.unfaulted →
      match i with
      | .jp nnn => t.pc = nnn.setWidth 16
      | .call nnn => t.pc = nnn.setWidth 16
      | .jpV0 nnn => t.pc = nnn.setWidth 16 + (s.v[(0 : Fin 16)]).setWidth 16
      | .ret => ∃ j : Fin 16, s.sp.val = j.val + 1 ∧ t.pc = s.stack[j] + 2
      | .seImm x kk => t.pc = if s.v[x] = kk then s.pc + 4 else s.pc + 2
      | .sneImm x kk => t.pc = if s.v[x] ≠ kk then s.pc + 4 else s.pc + 2
      | .seReg x y => t.pc = if s.v[x] = s.v[y] then s.pc + 4 else s.pc + 2
      | .sneReg x y => t.pc = if s.v[x] ≠ s.v[y] then s.pc + 4 else s.pc + 2
      | .skp x => ∃ k : Fin 16, k.val = s.v[x].toNat ∧ t.pc = if s.keys[k] then s.pc + 4 else s.pc + 2
      | .sknp x => ∃ k : Fin 16, k.val = s.v[x].toNat ∧ t.pc = if s.keys[k] then s.pc + 2 else s.pc + 4
      | .ldVxK _ => t.pc = if ∃ k : Fin 16, s.keys[k] = true then s.pc + 2 else s.pc
      | _ => t.pc = s.pc + 2)

/-! ### Registers and arithmetic -/

/-- 41_alu.md R76, R78. -/
def Obligations.LoadsWriteTheirRegister : Prop :=
  ∀ (x y : Reg) (kk : Byte) (s : State),
    (∃ t, exec (.ldImm x kk) s = .next t ∧ t.v[x] = kk ∧ (∀ r : Fin 16, r ≠ x → t.v[r] = s.v[r]) ∧
      t = { s with v := t.v, pc := s.pc + 2 }) ∧
    ∃ t, exec (.ldReg x y) s = .next t ∧ t.v[x] = s.v[y] ∧ (∀ r : Fin 16, r ≠ x → t.v[r] = s.v[r]) ∧
      t = { s with v := t.v, pc := s.pc + 2 }

/-- 41_alu.md R77: a wrapping sum, and no flag. -/
def Obligations.AddImmediateWrapsWithoutFlag : Prop :=
  ∀ (x : Reg) (kk : Byte) (s : State),
    ∃ t, exec (.addImm x kk) s = .next t ∧ t.v[x].toNat = (s.v[x].toNat + kk.toNat) % 256 ∧
      (∀ r : Fin 16, r ≠ x → t.v[r] = s.v[r]) ∧ t = { s with v := t.v, pc := s.pc + 2 }

/-- 41_alu.md R79 to R81: bit by bit, and no flag. -/
def Obligations.LogicWorksBitwiseWithoutFlag : Prop :=
  ∀ (x y : Reg) (s : State),
    (∃ t, exec (.orReg x y) s = .next t ∧ (∀ b < 8, t.v[x].getLsbD b = (s.v[x].getLsbD b || s.v[y].getLsbD b)) ∧
      (∀ r : Fin 16, r ≠ x → t.v[r] = s.v[r]) ∧ t = { s with v := t.v, pc := s.pc + 2 }) ∧
    (∃ t, exec (.andReg x y) s = .next t ∧ (∀ b < 8, t.v[x].getLsbD b = (s.v[x].getLsbD b && s.v[y].getLsbD b)) ∧
      (∀ r : Fin 16, r ≠ x → t.v[r] = s.v[r]) ∧ t = { s with v := t.v, pc := s.pc + 2 }) ∧
    ∃ t, exec (.xorReg x y) s = .next t ∧ (∀ b < 8, t.v[x].getLsbD b = (s.v[x].getLsbD b ^^ s.v[y].getLsbD b)) ∧
      (∀ r : Fin 16, r ≠ x → t.v[r] = s.v[r]) ∧ t = { s with v := t.v, pc := s.pc + 2 }

/-- 41_alu.md R82: the sum of the old values; the carry in `VF`, which the result overwrites when `x` is 15. -/
def Obligations.AddSetsTheCarry : Prop :=
  ∀ (x y : Reg) (s : State),
    ∃ t, exec (.addReg x y) s = .next t ∧ t.v[x].toNat = (s.v[x].toNat + s.v[y].toNat) % 256 ∧
      (x ≠ 15 → t.v[(15 : Fin 16)] = if 255 < s.v[x].toNat + s.v[y].toNat then 1 else 0) ∧
      (∀ r : Fin 16, r ≠ x → r ≠ 15 → t.v[r] = s.v[r]) ∧ t = { s with v := t.v, pc := s.pc + 2 }

/-- 41_alu.md R83, by its corner cases: the flag is strict, and where a register is 15 the difference reads the flag. -/
def Obligations.SubtractSetsStrictlyGreater : Prop :=
  ∀ (x y : Reg) (s : State) (f : Byte), f = (if s.v[y].toNat < s.v[x].toNat then 1 else 0) →
    ∃ t, exec (.subReg x y) s = .next t ∧
      (x ≠ 15 → y ≠ 15 → t.v[x] = s.v[x] - s.v[y] ∧ t.v[(15 : Fin 16)] = f) ∧
      (x = 15 → y ≠ 15 → t.v[(15 : Fin 16)] = f - s.v[y]) ∧
      (x ≠ 15 → y = 15 → t.v[x] = s.v[x] - f ∧ t.v[(15 : Fin 16)] = f) ∧
      (x = 15 → y = 15 → t.v[(15 : Fin 16)] = 0) ∧
      (∀ r : Fin 16, r ≠ x → r ≠ 15 → t.v[r] = s.v[r]) ∧ t = { s with v := t.v, pc := s.pc + 2 }

/-- 41_alu.md R85, by its corner cases. -/
def Obligations.ReverseSubtractSetsStrictlyGreater : Prop :=
  ∀ (x y : Reg) (s : State) (f : Byte), f = (if s.v[x].toNat < s.v[y].toNat then 1 else 0) →
    ∃ t, exec (.subnReg x y) s = .next t ∧
      (x ≠ 15 → y ≠ 15 → t.v[x] = s.v[y] - s.v[x] ∧ t.v[(15 : Fin 16)] = f) ∧
      (x = 15 → y ≠ 15 → t.v[(15 : Fin 16)] = s.v[y] - f) ∧
      (x ≠ 15 → y = 15 → t.v[x] = f - s.v[x] ∧ t.v[(15 : Fin 16)] = f) ∧
      (x = 15 → y = 15 → t.v[(15 : Fin 16)] = 0) ∧
      (∀ r : Fin 16, r ≠ x → r ≠ 15 → t.v[r] = s.v[r]) ∧ t = { s with v := t.v, pc := s.pc + 2 }

/-- 41_alu.md R84, R86: the shifts in place, the bit shifted out in `VF`, and what `x = 15` leaves; `y` has no effect. -/
def Obligations.ShiftsMoveOneBitIntoTheFlag : Prop :=
  ∀ (x y : Reg) (s : State),
    (∃ t, exec (.shr x y) s = .next t ∧
      (x ≠ 15 → t.v[x].toNat = s.v[x].toNat / 2 ∧ (t.v[(15 : Fin 16)]).toNat = s.v[x].toNat % 2) ∧
      (x = 15 → t.v[(15 : Fin 16)] = 0) ∧
      (∀ r : Fin 16, r ≠ x → r ≠ 15 → t.v[r] = s.v[r]) ∧ t = { s with v := t.v, pc := s.pc + 2 }) ∧
    ∃ t, exec (.shl x y) s = .next t ∧
      (x ≠ 15 → t.v[x].toNat = s.v[x].toNat * 2 % 256 ∧ (t.v[(15 : Fin 16)]).toNat = s.v[x].toNat / 128) ∧
      (x = 15 → t.v[(15 : Fin 16)] = if 0x80 ≤ s.v[x].toNat then 2 else 0) ∧
      (∀ r : Fin 16, r ≠ x → r ≠ 15 → t.v[r] = s.v[r]) ∧ t = { s with v := t.v, pc := s.pc + 2 }

/-- 41_alu.md R87: a free byte under the mask. That the byte is `Config.rnd` at the draw counter, and that each draw advances
the counter by 1, so that the next draw is another free byte, is the model's choice (log entry 2); nothing rests on the
counter's value. -/
def Obligations.RandomIsAFreeByteUnderTheMask : Prop :=
  ∀ (x : Reg) (kk : Byte) (s : State),
    ∃ t rnd, exec (.rnd x kk) s = .next t ∧ rnd = Config.rnd s.draws ∧ t.v[x] = rnd &&& kk ∧
      (∀ b < 8, kk.getLsbD b = false → t.v[x].getLsbD b = false) ∧
      (∀ r : Fin 16, r ≠ x → t.v[r] = s.v[r]) ∧ t = { s with v := t.v, pc := s.pc + 2, draws := s.draws + 1 }

/-- 10_state.md R12: the six instructions that write `VF` as a flag leave 0 or 1 there where `VF` is not also their
destination; any other instruction writes it only as its destination. -/
def Obligations.FlagIsWrittenByTheSixAlone : Prop :=
  ∀ (i : Instr) (s t : State), s.unfaulted → exec i s = .next t →
    match i with
    | .addReg x _ | .subReg x _ | .shr x _ | .subnReg x _ | .shl x _ =>
      x ≠ 15 → t.v[(15 : Fin 16)] = 0 ∨ t.v[(15 : Fin 16)] = 1
    | .drw _ _ _ => t.unfaulted → t.v[(15 : Fin 16)] = 0 ∨ t.v[(15 : Fin 16)] = 1
    | .ldImm x _ | .addImm x _ | .ldReg x _ | .orReg x _ | .andReg x _ | .xorReg x _ | .rnd x _
    | .ldVxDt x | .ldVxK x | .loadRegs x => x ≠ 15 → t.v[(15 : Fin 16)] = s.v[(15 : Fin 16)]
    | _ => t.v = s.v

/-! ### Index register and memory -/

/-- 42_index_memory.md R95 to R97: `I` from an immediate, plus a register modulo 65536 with no flag, and to a glyph with no
mask. -/
def Obligations.IndexInstructionsSetI : Prop :=
  ∀ (x : Reg) (nnn : BitVec 12) (s : State),
    (∃ t, exec (.ldI nnn) s = .next t ∧ t.i.toNat = nnn.toNat ∧ t = { s with i := t.i, pc := s.pc + 2 }) ∧
    (∃ t, exec (.addIVx x) s = .next t ∧ t.i.toNat = (s.i.toNat + s.v[x].toNat) % 65536 ∧
      t = { s with i := t.i, pc := s.pc + 2 }) ∧
    ∃ t, exec (.ldFVx x) s = .next t ∧ t.i.toNat = 0x050 + 5 * s.v[x].toNat ∧
      t = { s with i := t.i, pc := s.pc + 2 }

/-- 42_index_memory.md R98: the three digits at `I`, `I + 1`, `I + 2`, every other byte as before, and the fault. -/
def Obligations.BcdStoresThreeDigits : Prop :=
  ∀ (x : Reg) (s : State),
    (4095 < s.i.toNat + 2 → exec (.ldBVx x) s = .next { s with fault := ⟨.dataOutOfRange, s.pc, s.i⟩ }) ∧
    (s.i.toNat + 2 ≤ 4095 →
      ∃ t, exec (.ldBVx x) s = .next t ∧ (t.mem.read s.i.toNat).toNat = s.v[x].toNat / 100 ∧
        (t.mem.read (s.i.toNat + 1)).toNat = s.v[x].toNat / 10 % 10 ∧
        (t.mem.read (s.i.toNat + 2)).toNat = s.v[x].toNat % 10 ∧
        (∀ a, a < s.i.toNat ∨ s.i.toNat + 2 < a → t.mem.read a = s.mem.read a) ∧
        t = { s with mem := t.mem, pc := s.pc + 2 })

/-- 42_index_memory.md R99: `V[0]` to `V[x]` at `I` up, every other byte as before, `I` unchanged, and the fault. -/
def Obligations.StoreBlockWritesVUpToX : Prop :=
  ∀ (x : Reg) (s : State),
    (4095 < s.i.toNat + x.val →
      exec (.storeRegs x) s = .next { s with fault := ⟨.dataOutOfRange, s.pc, s.i⟩ }) ∧
    (s.i.toNat + x.val ≤ 4095 →
      ∃ t, exec (.storeRegs x) s = .next t ∧
        (∀ r : Fin 16, r ≤ x → t.mem.read (s.i.toNat + r.val) = s.v[r]) ∧
        (∀ a, a < s.i.toNat ∨ s.i.toNat + x.val < a → t.mem.read a = s.mem.read a) ∧
        t = { s with mem := t.mem, pc := s.pc + 2 })

/-- 42_index_memory.md R100: `V[0]` to `V[x]` from `I` up, registers above unchanged, memory and `I` unchanged, and the
fault. -/
def Obligations.LoadBlockReadsVUpToX : Prop :=
  ∀ (x : Reg) (s : State),
    (4095 < s.i.toNat + x.val →
      exec (.loadRegs x) s = .next { s with fault := ⟨.dataOutOfRange, s.pc, s.i⟩ }) ∧
    (s.i.toNat + x.val ≤ 4095 →
      ∃ t, exec (.loadRegs x) s = .next t ∧
        (∀ r : Fin 16, r ≤ x → t.v[r] = s.mem.read (s.i.toNat + r.val)) ∧
        (∀ r : Fin 16, x < r → t.v[r] = s.v[r]) ∧ t = { s with v := t.v, pc := s.pc + 2 })

/-- 20_memory.md R41, which the spec marks as derived: a store over the next instruction is what the next step fetches. -/
def Obligations.NextFetchSeesTheStore : Prop :=
  ∀ (x : Reg) (s : State), s.unfaulted → 1 ≤ x.val → s.i = s.pc + 2 → s.i.toNat + x.val ≤ 4095 →
    ∃ t, exec (.storeRegs x) s = .next t ∧
      step t = exec (decodeWord (s.v[(0 : Fin 16)] ++ s.v[(1 : Fin 16)])) t

/-- Two memories in canonical form that read alike everywhere are equal data, so memory may be treated as a function from
address to byte (20_memory.md R38). -/
def Obligations.CanonicalMemoriesThatReadAlikeAreEqual : Prop :=
  ∀ m m' : Memory, m.wf → m'.wf → (∀ a, m.read a = m'.read a) → m = m'

/-! ### Display -/

/-- 43_display.md R106. -/
def Obligations.ClearBlanksTheDisplay : Prop :=
  ∀ s : State, ∃ t, exec .cls s = .next t ∧ (∀ r c, t.display.pixel r c = false) ∧
    t = { s with display := t.display, drawFlag := true, pc := s.pc + 2 }

/-- 43_display.md R107, R105: exactly the pixels under a sprite bit that is 1 are toggled, each wrapped on its own; `VF` is 1
iff one of them was set before; and the fault. -/
def Obligations.DrawTogglesTheSpritePixels : Prop :=
  ∀ (x y : Reg) (n : Fin 16) (s : State) (under : Fin 32 → Fin 64 → Prop),
    (∀ row col, under row col ↔ ∃ r b : Nat, r < n.val ∧ b < 8 ∧
      (s.mem.read (s.i.toNat + r)).getLsbD (7 - b) = true ∧
      row.val = (s.v[y].toNat + r) % 32 ∧ col.val = (s.v[x].toNat + b) % 64) →
    (1 ≤ n.val → 4095 < s.i.toNat + n.val - 1 →
      exec (.drw x y n) s = .next { s with fault := ⟨.dataOutOfRange, s.pc, s.i⟩ }) ∧
    (n.val = 0 ∨ s.i.toNat + n.val - 1 ≤ 4095 →
      ∃ t, exec (.drw x y n) s = .next t ∧
        (∀ row col, under row col → t.display.pixel row col = !s.display.pixel row col) ∧
        (∀ row col, ¬ under row col → t.display.pixel row col = s.display.pixel row col) ∧
        ((∃ row col, under row col ∧ s.display.pixel row col = true) → t.v[(15 : Fin 16)] = 1) ∧
        ((∀ row col, under row col → s.display.pixel row col = false) → t.v[(15 : Fin 16)] = 0) ∧
        (∀ r : Fin 16, r ≠ 15 → t.v[r] = s.v[r]) ∧
        t = { s with v := t.v, display := t.display, drawFlag := true, pc := s.pc + 2 })

/-- 43_display.md R108, which the spec marks as derived: the row-word form of one sprite row gives the display and the
collision of the per-pixel form. -/
def Obligations.RowWordFormAgreesWithPerPixelForm : Prop :=
  ∀ (cx cy r : Nat) (byte : Byte) (t : Raster) (m : BitVec 64) (row : Fin 32),
    m = (byte.setWidth 64 <<< 56).rotateRight (cx % 64) → row.val = (cy + r) % 32 →
    drawRow cx cy r byte t =
      { display := t.display.set row (t.display[row] ^^^ m), hit := t.hit || t.display[row] &&& m != 0 }

/-- 43_display.md R107, the corner case it marks as derived: drawing the same sprite twice restores the display, and the second draw collides
iff the first turned a pixel on. -/
def Obligations.DrawingTwiceRestoresTheDisplay : Prop :=
  ∀ (x y : Reg) (n : Fin 16) (s : State), x ≠ 15 → y ≠ 15 → n.val = 0 ∨ s.i.toNat + n.val - 1 ≤ 4095 →
    ∃ t u, exec (.drw x y n) s = .next t ∧ exec (.drw x y n) t = .next u ∧ u.display = s.display ∧
      (u.v[(15 : Fin 16)] = 1 ↔ ∃ row col, s.display.pixel row col = false ∧ t.display.pixel row col = true)

/-! ### Keys and timers -/

/-- 44_keys_timers.md R115, R116. -/
def Obligations.KeySkipsReadTheNamedKey : Prop :=
  ∀ (x : Reg) (s : State),
    (15 < s.v[x].toNat →
      exec (.skp x) s = .next { s with fault := ⟨.keyIndexOutOfRange, s.pc, s.v[x].setWidth 16⟩ } ∧
      exec (.sknp x) s = .next { s with fault := ⟨.keyIndexOutOfRange, s.pc, s.v[x].setWidth 16⟩ }) ∧
    ∀ k : Fin 16, s.v[x].toNat = k.val →
      exec (.skp x) s = .next { s with pc := if s.keys[k] = true then s.pc + 4 else s.pc + 2 } ∧
      exec (.sknp x) s = .next { s with pc := if s.keys[k] = false then s.pc + 4 else s.pc + 2 }

/-- 44_keys_timers.md R117: the least pressed key, or no change at all. -/
def Obligations.KeyWaitTakesTheLeastKeyOrStalls : Prop :=
  ∀ (x : Reg) (s : State),
    ((∀ k : Fin 16, s.keys[k] = false) → exec (.ldVxK x) s = .next s) ∧
    ∀ k : Fin 16, s.keys[k] = true → (∀ j : Fin 16, j < k → s.keys[j] = false) →
      ∃ t, exec (.ldVxK x) s = .next t ∧ t.v[x].toNat = k.val ∧ (∀ r : Fin 16, r ≠ x → t.v[r] = s.v[r]) ∧
        t = { s with v := t.v, pc := s.pc + 2 }

/-- 44_keys_timers.md R118 to R120. -/
def Obligations.TimerInstructionsMoveTheTimers : Prop :=
  ∀ (x : Reg) (s : State),
    (∃ t, exec (.ldVxDt x) s = .next t ∧ t.v[x] = s.dt ∧ (∀ r : Fin 16, r ≠ x → t.v[r] = s.v[r]) ∧
      t = { s with v := t.v, pc := s.pc + 2 }) ∧
    exec (.ldDtVx x) s = .next { s with dt := s.v[x], pc := s.pc + 2 } ∧
    exec (.ldStVx x) s = .next { s with st := s.v[x], pc := s.pc + 2 }

/-- 44_keys_timers.md R121: enabled in every state; each timer goes down by 1 and stays at 0; nothing else changes. -/
def Obligations.TickCountsBothTimersDown : Prop :=
  ∀ s : State, ∃ t, Event.tick.apply s = some (t, .nothing) ∧ t.dt.toNat = s.dt.toNat - 1 ∧
    t.st.toNat = s.st.toNat - 1 ∧ t = { s with dt := t.dt, st := t.st }

/-- 44_keys_timers.md R122 (a): `Fx07` after `Fx15` with value `v` and `k` ticks between reads `max(v - k, 0)`. -/
def Obligations.DelayTimerReadsTheTicksSinceItsLoad : Prop :=
  ∀ (x y : Reg) (s : State) (k : Nat),
    ∃ t u w, exec (.ldDtVx x) s = .next t ∧ runEvents (List.replicate k .tick) t = some u ∧
      exec (.ldVxDt y) u = .next w ∧ w.v[y].toNat = s.v[x].toNat - k

/-- 44_keys_timers.md R122 (b): over every event, `DT` rises only by a step that runs `Fx15`, `ST` only by one that runs
`Fx18`. -/
def Obligations.TimersRiseOnlyByTheirLoads : Prop :=
  ∀ (e : Event) (s t : State) (o : Observation), e.apply s = some (t, o) →
    (s.dt.toNat < t.dt.toNat → e = .step ∧ ∃ w x, fetchWord s = some w ∧ decodeWord w = .ldDtVx x) ∧
    (s.st.toNat < t.st.toNat → e = .step ∧ ∃ w x, fetchWord s = some w ∧ decodeWord w = .ldStVx x)

/-! ### The agents outside the engine -/

/-- 60_exceptions.md R137 to R140: each event's effect and observation, in every state. -/
def Obligations.CollaboratorsTouchOnlyTheirFields : Prop :=
  ∀ s : State,
    (∀ (k : Fin 16) (b : Bool), ∃ t, (Event.setKey k b).apply s = some (t, .nothing) ∧ t.keys[k] = b ∧
      (∀ j : Fin 16, j ≠ k → t.keys[j] = s.keys[j]) ∧ t = { s with keys := t.keys }) ∧
    (∃ d, Event.readDisplay.apply s = some (s, .displayed d s.drawFlag) ∧
      ∀ (r : Fin 32) (c : Fin 64), d[r].getLsbD (63 - c.val) = s.display.pixel r c) ∧
    Event.drawAck.apply s = some ({ s with drawFlag := false }, .nothing) ∧
    Event.readST.apply s = some (s, .soundTimer s.st)

/-- 70_reset_and_hazards.md R147: the length check before any write, and the copy. -/
def Obligations.LoadProgramCopiesOrRefusesWhole : Prop :=
  ∀ (bytes : List Byte) (s : State),
    (3584 < bytes.length →
      (Event.loadProgram bytes).apply s = some (s, .loadReport .programTooLarge)) ∧
    (bytes.length ≤ 3584 →
      ∃ t, (Event.loadProgram bytes).apply s = some (t, .loadReport .loaded) ∧
        (∀ j (h : j < bytes.length), t.mem.read (0x200 + j) = bytes[j]) ∧
        (∀ a, a < 0x200 ∨ 0x200 + bytes.length ≤ a → t.mem.read a = s.mem.read a) ∧
        t = { s with mem := t.mem })

/-! ### Rules of the whole machine -/

/-- The "Written by" column of 10_state.md section 1 for the engine, every row: the instructions that may change each item,
and that none changes the keys. `PC` is left by a stalled `Fx0A`, and by an instruction that writes `FAULT`. (The one write
of `FAULT` outside an instruction is the fetch's, in `FaultsAreThoseOfTheTable`.) -/
def Obligations.EachItemHasOnlyItsWriters : Prop :=
  ∀ (i : Instr) (s t : State), exec i s = .next t →
    (t.mem ≠ s.mem → ∃ x, i = .ldBVx x ∨ i = .storeRegs x) ∧
    (t.v ≠ s.v →
      match i with
      | .ldImm _ _ | .addImm _ _ | .ldReg _ _ | .orReg _ _ | .andReg _ _ | .xorReg _ _ | .addReg _ _ | .subReg _ _
      | .shr _ _ | .subnReg _ _ | .shl _ _ | .rnd _ _ | .drw _ _ _ | .ldVxDt _ | .ldVxK _ | .loadRegs _ => True
      | _ => False) ∧
    (t.i ≠ s.i → (∃ nnn, i = .ldI nnn) ∨ ∃ x, i = .addIVx x ∨ i = .ldFVx x) ∧
    (t.pc ≠ s.pc → ∀ x, i = .ldVxK x → ∃ k : Fin 16, s.keys[k] = true) ∧
    (t.sp ≠ s.sp → i = .ret ∨ ∃ nnn, i = .call nnn) ∧
    (t.stack ≠ s.stack → ∃ nnn, i = .call nnn) ∧
    (t.dt ≠ s.dt → ∃ x, i = .ldDtVx x) ∧ (t.st ≠ s.st → ∃ x, i = .ldStVx x) ∧
    (t.display ≠ s.display → i = .cls ∨ ∃ x y n, i = .drw x y n) ∧
    (t.drawFlag ≠ s.drawFlag → t.drawFlag = true ∧ (i = .cls ∨ ∃ x y n, i = .drw x y n)) ∧
    (t.fault ≠ s.fault → t.pc = s.pc ∧
      match i with
      | .drw _ _ _ | .ldBVx _ | .storeRegs _ | .loadRegs _ | .call _ | .ret | .skp _ | .sknp _ => True
      | _ => False) ∧
    t.keys = s.keys

/-- 10_state.md R17, R20: no instruction reads `draw_flag` or `ST`: from two states that differ only there, every
instruction leads to two states that differ at most there. For `Cxkk` the two runs draw the same byte, since the states
agree on the draw counter: the model's choice (log entry 2), where the hardware may draw two. -/
def Obligations.ProgramsCannotObserveDrawFlagOrSound : Prop :=
  ∀ (i : Instr) (s t : State) (flag : Bool) (sound : Byte), exec i s = .next t →
    ∃ u, exec i { s with drawFlag := flag, st := sound } = .next u ∧
      { u with drawFlag := t.drawFlag, st := t.st } = t

/-- 10_state.md R18, R17: only `Ex9E`, `ExA1` and `Fx0A` read the keys, and only `Fx07` reads `DT`. For `Cxkk` the two runs
draw the same byte, since the states agree on the draw counter: the model's choice (log entry 2), where the hardware may
draw two. -/
def Obligations.KeysAndDelayReachOnlyTheirReaders : Prop :=
  ∀ (i : Instr) (s t : State) (keys : Vector Bool 16) (delay : Byte), exec i s = .next t →
    ((∀ x, i ≠ .skp x ∧ i ≠ .sknp x ∧ i ≠ .ldVxK x) →
      exec i { s with keys := keys } = .next { t with keys := keys }) ∧
    ((∀ x, i ≠ .ldVxDt x) →
      ∃ u, exec i { s with dt := delay } = .next u ∧ { u with dt := t.dt } = t)

/-- 70_reset_and_hazards.md R149, whose definition of a terminal state is the spec's own (its decision D25): every further
step leaves the whole state unchanged. -/
def Obligations.TerminalStateStepsToItself : Prop :=
  ∀ s : State, s.terminal → step s = .next s ∧ ∀ k, Host.Core.run Sys2Proof.core k s = .next s

/-- The invariant holds after reset (10_state.md R22, R23). -/
def Obligations.ResetMeetsTheInvariant : Prop := State.reset.Inv

/-- The invariant of reachable states is kept by every step from every state that has it: memory canonical, `PC` at most
0x10FE, live stack entries at most 0xFFE, the latch as R125 says (10_state.md R15, R22, 60_exceptions.md R125, R126). -/
def Obligations.EveryStepKeepsTheInvariant : Prop :=
  ∀ s t : State, s.Inv → step s = .next t → t.Inv

/-- 10_state.md R22, part of which the spec marks as derived: what holds in every state that events reach from `reset`, in any order. -/
def Obligations.ReachableStatesStayInRange : Prop :=
  ∀ (es : List Event) (s : State), runEvents es State.reset = some s →
    (∀ x : Fin 16, s.v[x].toNat ≤ 255) ∧ s.dt.toNat ≤ 255 ∧ s.st.toNat ≤ 255 ∧ s.i.toNat ≤ 65535 ∧
    s.pc.toNat ≤ 0x10FE ∧ s.sp.val ≤ 16 ∧ (∀ j : Fin 16, j.val < s.sp.val → s.stack[j].toNat ≤ 0xFFE) ∧
    s.fault.cause.code.toNat ≤ 5

/-- The invariant is kept by every event of 00_scope.md R1 from every state that has it, so it holds in every run from reset
(10_state.md R22, 60_exceptions.md R125 to R128, 70_reset_and_hazards.md R145, R147). -/
def Obligations.EveryEventKeepsTheInvariant : Prop :=
  ∀ (e : Event) (s t : State) (o : Observation), s.Inv → e.apply s = some (t, o) → t.Inv

/-- 41_alu.md R87, 92_eei_decisions.md D11: each byte is drawn afresh. In the model's form (log entry 2): once `Cxkk` has
drawn, no event of the run that follows, `reset` among them, brings the counter back to that draw's number. -/
def Obligations.NoLaterDrawHasTheNumberOfAnEarlierOne : Prop :=
  ∀ (x : Reg) (kk : Byte) (s t u : State) (w : Word) (o : Observation) (es : List Event),
    fetchWord s = some w → decodeWord w = .rnd x kk → Event.step.apply s = some (t, o) → runEvents es t = some u →
    s.draws < u.draws
end

