-- ==== Sys2Proof/Laws/Decode.lean ====
section
/-! SUPPORT. The decoder over the opcode table, and the digits the encoder puts together. -/

namespace Sys2Proof

/-- No two rows of R50 can accept one word: somewhere both masks look, the patterns differ (30_encoding.md R49). -/
theorem opcodeTable_disjoint :
    opcodeTable.Pairwise fun r r' => r.mask &&& r'.mask &&& (r.pattern ^^^ r'.pattern) ≠ 0 := by
  decide

/-- Two rows that differ where both masks look do not accept one word. -/
theorem accepts_disjoint (r r' : OpcodeRow) (w : Word) (h : r.mask &&& r'.mask &&& (r.pattern ^^^ r'.pattern) ≠ 0)
    (hr : r.accepts w = true) : r'.accepts w = false := by
  rw [Bool.eq_false_iff]
  intro hr'
  apply h
  simp only [OpcodeRow.accepts, beq_iff_eq] at hr hr'
  rw [← hr, ← hr']
  ext b hb
  show _ = (0#16)[b]
  simp only [BitVec.getElem_and, BitVec.getElem_xor, BitVec.getElem_zero]
  cases r.mask[b] <;> cases r'.mask[b] <;> cases w[b] <;> rfl

/-- A row that accepts a word gives its instruction: the order of the rows plays no part (R49). -/
theorem decodeWord_of_accepts (r : OpcodeRow) (hr : r ∈ opcodeTable) (w : Word) (h : r.accepts w = true) :
    decodeWord w = r.build w := by
  have hfind : opcodeTable.find? (fun r => r.accepts w) = some r := by
    have := opcodeTable_disjoint
    revert this hr
    generalize opcodeTable = rows
    intro hr hd
    induction rows with
    | nil => cases hr
    | cons q rows ih =>
      have hq := List.pairwise_cons.mp hd
      rcases List.mem_cons.mp hr with rfl | hr'
      · exact List.find?_cons_of_pos (p := fun r : OpcodeRow => r.accepts w) h
      · have hno : q.accepts w = false := by
          rw [Bool.eq_false_iff]
          intro hqw
          rw [accepts_disjoint q r w (hq.1 r hr') hqw] at h
          cases h
        rw [List.find?_cons_of_neg (by simp [hno])]
        exact ih hr' hq.2
  unfold decodeWord
  rw [hfind]

/-- A word that no row accepts is unrecognized (R51). -/
theorem decodeWord_of_not_recognized (w : Word) (h : recognized w = false) : decodeWord w = .unrecognized w := by
  have : opcodeTable.find? (fun r => r.accepts w) = none := by
    rw [List.find?_eq_none]
    intro r hr hw
    rw [recognized, List.any_eq_false] at h
    exact h r hr hw
  unfold decodeWord
  rw [this]

/-! ### Words and digits -/

/-- A word in memory's byte order reads back (20_memory.md R33). -/
@[simp] theorem wordOfBytes_high_low (w : Word) : wordOfBytes (highByte w) (lowByte w) = w := by
  unfold wordOfBytes highByte lowByte
  ext i hi
  rw [BitVec.getElem_append]
  split
  · simp [BitVec.getLsbD_eq_getElem hi]
  · simp [show 8 + (i - 8) = i by omega, BitVec.getLsbD_eq_getElem hi]

@[simp] theorem nibble_toFin (b : BitVec 4) : nibble b.toFin = b := rfl

@[simp] theorem toFin_nibble (x : Fin 16) : (nibble x).toFin = x := rfl

/-! ### What a row's mask leaves of an encoded word, by the formats of R47 -/

theorem mask_nnn (op : BitVec 4) (nnn : BitVec 12) : (op ++ nnn : Word) &&& 0xF000#16 = op ++ 0#12 := by
  rw [show 0xF000#16 = 0xF#4 ++ 0#12 from rfl, BitVec.and_append, BitVec.and_zero]
  exact congrArg (· ++ 0#12) BitVec.and_allOnes

theorem mask_xkk (op : BitVec 4) (x : BitVec 4) (kk : Byte) :
    (op ++ x ++ kk : Word) &&& 0xF000#16 = op ++ 0#4 ++ 0#8 := by
  rw [show 0xF000#16 = 0xF#4 ++ 0#4 ++ 0#8 from rfl, BitVec.and_append, BitVec.and_append, BitVec.and_zero,
    BitVec.and_zero]
  exact congrArg (· ++ 0#4 ++ 0#8) BitVec.and_allOnes

theorem mask_xy (op x y n : BitVec 4) : (op ++ x ++ y ++ n : Word) &&& 0xF00F#16 = op ++ 0#4 ++ 0#4 ++ n := by
  rw [show 0xF00F#16 = 0xF#4 ++ 0#4 ++ 0#4 ++ 0xF#4 from rfl, BitVec.and_append, BitVec.and_append, BitVec.and_append,
    BitVec.and_zero, BitVec.and_zero]
  exact congrArg₂ (· ++ 0#4 ++ 0#4 ++ ·) BitVec.and_allOnes BitVec.and_allOnes

theorem mask_xyn (op x y n : BitVec 4) : (op ++ x ++ y ++ n : Word) &&& 0xF000#16 = op ++ 0#4 ++ 0#4 ++ 0#4 := by
  rw [show 0xF000#16 = 0xF#4 ++ 0#4 ++ 0#4 ++ 0#4 from rfl, BitVec.and_append, BitVec.and_append, BitVec.and_append,
    BitVec.and_zero, BitVec.and_zero, BitVec.and_zero]
  exact congrArg (· ++ 0#4 ++ 0#4 ++ 0#4) BitVec.and_allOnes

theorem mask_x (op x : BitVec 4) (kk : Byte) : (op ++ x ++ kk : Word) &&& 0xF0FF#16 = op ++ 0#4 ++ kk := by
  rw [show 0xF0FF#16 = 0xF#4 ++ 0#4 ++ 0xFF#8 from rfl, BitVec.and_append, BitVec.and_append, BitVec.and_zero]
  exact congrArg₂ (· ++ 0#4 ++ ·) BitVec.and_allOnes BitVec.and_allOnes

/-- A row of the table that accepts a word makes it recognized. -/
theorem recognized_of_accepts (r : OpcodeRow) (hr : r ∈ opcodeTable) (w : Word) (h : w &&& r.mask = r.pattern) :
    recognized w = true :=
  List.any_eq_true.mpr ⟨r, hr, by simpa [OpcodeRow.accepts] using h⟩

end Sys2Proof
end

