-- ==== Sys2Proof/Laws/Memory.lean ====
section
/-! SUPPORT. The laws of memory: a read after a write, and the canonical form that every operation keeps (20_memory.md R31,
R38). -/

namespace Sys2Proof.Machine

/-! ### The sizes as numbers, for omega -/

@[simp] theorem memSize_eq : Config.memSize = 4096 := rfl

@[simp] theorem fontBase_eq : Config.fontBase = 0x050 := rfl

@[simp] theorem progBase_eq : Config.progBase = 0x200 := rfl

@[simp] theorem progMaxLen_eq : Config.progMaxLen = 3584 := rfl

/-! ### One cell -/

@[simp] theorem Memory.read_nil (a : Nat) : Memory.read [] a = Memory.blank a := rfl

@[simp] theorem Memory.read_cons (c : Host.Cell) (m : Memory) (a : Nat) :
    Memory.read (c :: m) a = if c.1 = a then c.2 else m.read a := rfl

theorem Memory.insertCell_cons (a : Nat) (b : Byte) (c : Host.Cell) (m : Memory) :
    Memory.insertCell a b (c :: m) = if a < c.1 then (a, b) :: c :: m else c :: Memory.insertCell a b m := rfl

/-- An address with no cell reads as unlisted. -/
theorem Memory.read_of_unlisted (m : Memory) (a : Nat) (h : ∀ c ∈ m, c.1 ≠ a) : m.read a = Memory.blank a := by
  induction m with
  | nil => rfl
  | cons c m ih =>
    rw [Memory.read_cons, if_neg (h c (by simp))]
    exact ih fun d hd => h d (by simp [hd])

/-- Taking the cells of one address away changes no other read. -/
theorem Memory.read_filter_other (m : Memory) (a a' : Nat) (h : a' ≠ a) :
    Memory.read (m.filter fun c => c.1 != a) a' = m.read a' := by
  induction m with
  | nil => rfl
  | cons c m ih =>
    by_cases hc : c.1 = a
    · rw [List.filter_cons_of_neg (by simp [hc]), ih, Memory.read_cons, if_neg fun e => h (e.symm.trans hc)]
    · rw [List.filter_cons_of_pos (by simp [hc]), Memory.read_cons, Memory.read_cons, ih]

/-- A cell put in its place is read there, and nowhere else, if its address was free. -/
theorem Memory.read_insertCell (a : Nat) (b : Byte) (m : Memory) (a' : Nat) (free : ∀ c ∈ m, c.1 ≠ a) :
    Memory.read (Memory.insertCell a b m) a' = if a' = a then b else m.read a' := by
  induction m with
  | nil => simp [Memory.insertCell, eq_comm]
  | cons c m ih =>
    have hne : c.1 ≠ a := free c (by simp)
    have ih' := ih fun d hd => free d (by simp [hd])
    rw [Memory.insertCell_cons]
    by_cases hlt : a < c.1
    · simp only [if_pos hlt, Memory.read_cons, eq_comm (a := a)]
    · by_cases ha : c.1 = a'
      · have : a' ≠ a := fun e => hne (ha.trans e)
        rw [if_neg hlt, Memory.read_cons, Memory.read_cons, if_pos ha, if_pos ha, if_neg this]
      · rw [if_neg hlt, Memory.read_cons, Memory.read_cons, if_neg ha, if_neg ha, ih']

theorem Memory.filter_free (m : Memory) (a : Nat) : ∀ c ∈ m.filter (fun c => c.1 != a), c.1 ≠ a := by
  intro c hc
  simpa using (List.mem_filter.mp hc).2

/-- A byte reads as written, and every other byte as before (R31). -/
theorem Memory.read_write (m : Memory) (a : Nat) (b : Byte) (a' : Nat) (ha : a < 4096) :
    (m.write a b).read a' = if a' = a then b else m.read a' := by
  unfold Memory.write
  rw [if_pos ha]
  by_cases hb : b = Memory.blank a
  · simp only [if_pos hb]
    by_cases h : a' = a
    · rw [if_pos h, hb, h]
      exact Memory.read_of_unlisted _ _ (Memory.filter_free m a)
    · rw [if_neg h]
      exact Memory.read_filter_other m a a' h
  · simp only [if_neg hb]
    rw [Memory.read_insertCell _ _ _ _ (Memory.filter_free m a)]
    by_cases h : a' = a
    · simp [h]
    · simp only [if_neg h]
      exact Memory.read_filter_other m a a' h

/-- A write outside the 4096 bytes changes nothing. -/
theorem Memory.write_outside (m : Memory) (a : Nat) (b : Byte) (ha : 4096 ≤ a) : m.write a b = m := by
  unfold Memory.write
  rw [if_neg (Nat.not_lt.mpr ha)]

/-- A write changes no other byte, wherever it goes. -/
theorem Memory.read_write_other (m : Memory) (a : Nat) (b : Byte) (a' : Nat) (h : a' ≠ a) :
    (m.write a b).read a' = m.read a' := by
  by_cases ha : a < 4096
  · rw [Memory.read_write m a b a' ha, if_neg h]
  · rw [Memory.write_outside m a b (by omega)]

/-! ### A run of cells -/

@[simp] theorem Memory.writeBytes_nil (m : Memory) (a : Nat) : m.writeBytes a [] = m := rfl

@[simp] theorem Memory.writeBytes_cons (m : Memory) (a : Nat) (b : Byte) (bs : List Byte) :
    m.writeBytes a (b :: bs) = (m.write a b).writeBytes (a + 1) bs := rfl

/-- Every byte outside the run reads as before. -/
theorem Memory.read_writeBytes_outside (m : Memory) (a : Nat) (bs : List Byte) (a' : Nat)
    (h : a' < a ∨ a + bs.length ≤ a') : (m.writeBytes a bs).read a' = m.read a' := by
  induction bs generalizing m a with
  | nil => rfl
  | cons b bs ih =>
    rw [List.length_cons] at h
    rw [Memory.writeBytes_cons, ih _ _ (by omega), Memory.read_write_other _ _ _ _ (by omega)]

/-- Every byte of the run reads as written. -/
theorem Memory.read_writeBytes_inside (m : Memory) (a : Nat) (bs : List Byte) (j : Nat) (hj : j < bs.length)
    (fits : a + bs.length ≤ 4096) : (m.writeBytes a bs).read (a + j) = bs[j] := by
  induction bs generalizing m a j with
  | nil => exact absurd hj (by simp)
  | cons b bs ih =>
    rw [List.length_cons] at fits hj
    cases j with
    | zero =>
      rw [Memory.writeBytes_cons, Memory.read_writeBytes_outside _ _ _ _ (by omega)]
      simp [Memory.read_write _ _ _ _ (show a < 4096 by omega)]
    | succ j =>
      have := ih (m.write a b) (a + 1) j (by omega) (by omega)
      rw [Memory.writeBytes_cons, show a + (j + 1) = a + 1 + j by omega, this]
      rfl

/-! ### The canonical form -/

theorem Memory.wf_nil : Memory.wf [] := by
  simp [Memory.wf]

theorem Memory.mem_insertCell (a : Nat) (b : Byte) (m : Memory) (c : Host.Cell) :
    c ∈ Memory.insertCell a b m ↔ c = (a, b) ∨ c ∈ m := by
  induction m with
  | nil => simp [Memory.insertCell]
  | cons d m ih =>
    rw [Memory.insertCell_cons]
    by_cases h : a < d.1
    · simp [h]
    · simp [h, ih, or_left_comm]

theorem Memory.insertCell_rising (a : Nat) (b : Byte) (m : Memory) (h : m.Pairwise fun c d => c.1 < d.1)
    (free : ∀ c ∈ m, c.1 ≠ a) : (Memory.insertCell a b m).Pairwise fun c d => c.1 < d.1 := by
  induction m with
  | nil => simp [Memory.insertCell]
  | cons c m ih =>
    have hc := List.pairwise_cons.mp h
    by_cases hlt : a < c.1
    · rw [Memory.insertCell_cons, if_pos hlt]
      refine List.pairwise_cons.mpr ⟨?_, h⟩
      intro d hd
      rcases List.mem_cons.mp hd with rfl | hd
      · exact hlt
      · exact Nat.lt_trans hlt (hc.1 d hd)
    · rw [Memory.insertCell_cons, if_neg hlt]
      refine List.pairwise_cons.mpr ⟨?_, ih hc.2 fun d hd => free d (by simp [hd])⟩
      intro d hd
      have hne : c.1 ≠ a := free c (by simp)
      rcases (Memory.mem_insertCell a b m d).mp hd with rfl | hd
      · show c.1 < a
        omega
      · exact hc.1 d hd

/-- A write keeps the canonical form. -/
theorem Memory.write_wf (m : Memory) (a : Nat) (b : Byte) (h : m.wf) : (m.write a b).wf := by
  unfold Memory.write
  by_cases ha : a < 4096
  · have hr : (m.filter fun c => c.1 != a).Pairwise fun c d => c.1 < d.1 := h.1.filter _
    have hm : ∀ c ∈ m.filter (fun c => c.1 != a), c.1 < 4096 ∧ c.2 ≠ Memory.blank c.1 :=
      fun c hc => h.2 c (List.mem_filter.mp hc).1
    rw [if_pos ha]
    by_cases hb : b = Memory.blank a
    · simp only [if_pos hb]
      exact ⟨hr, hm⟩
    · simp only [if_neg hb]
      refine ⟨Memory.insertCell_rising a b _ hr (Memory.filter_free m a), fun c hc => ?_⟩
      rcases (Memory.mem_insertCell a b _ c).mp hc with rfl | hc
      · exact ⟨ha, hb⟩
      · exact hm c hc
  · rw [if_neg ha]
    exact h

/-- A run of writes keeps the canonical form. -/
theorem Memory.writeBytes_wf (m : Memory) (a : Nat) (bs : List Byte) (h : m.wf) : (m.writeBytes a bs).wf := by
  induction bs generalizing m a with
  | nil => exact h
  | cons b bs ih => exact ih _ _ (Memory.write_wf m a b h)

theorem reset_mem_wf : State.reset.mem.wf := Memory.wf_nil

theorem resetEvent_mem_wf (s : State) : (resetEvent s).mem.wf := reset_mem_wf

theorem placeWord_mem_wf (s : State) (w : Word) (h : s.mem.wf) : (placeWord s w).mem.wf :=
  Memory.writeBytes_wf _ _ _ h

theorem withFetchWord_mem_wf (s : State) (nbits w : Nat) (h : s.mem.wf) : (s.withFetchWord nbits w).mem.wf :=
  placeWord_mem_wf s _ h

theorem loadProgram_mem_wf (bytes : List Byte) (s : State) (h : s.mem.wf) : (loadProgram bytes s).2.mem.wf := by
  unfold loadProgram
  split
  · exact h
  · exact Memory.writeBytes_wf _ _ _ h

end Sys2Proof.Machine
end

