-- ==== Sys2Proof/Laws/State.lean ====
section
/-! SUPPORT. One lemma per field per update of the state, so that no later proof unfolds a record update. -/

namespace Sys2Proof.Machine

/-! ### `advance` -/

@[simp] theorem advance_mem (s : State) : s.advance.mem = s.mem := rfl
@[simp] theorem advance_v (s : State) : s.advance.v = s.v := rfl
@[simp] theorem advance_i (s : State) : s.advance.i = s.i := rfl
@[simp] theorem advance_pc (s : State) : s.advance.pc = s.pc + 2 := rfl
@[simp] theorem advance_sp (s : State) : s.advance.sp = s.sp := rfl
@[simp] theorem advance_stack (s : State) : s.advance.stack = s.stack := rfl
@[simp] theorem advance_dt (s : State) : s.advance.dt = s.dt := rfl
@[simp] theorem advance_st (s : State) : s.advance.st = s.st := rfl
@[simp] theorem advance_keys (s : State) : s.advance.keys = s.keys := rfl
@[simp] theorem advance_display (s : State) : s.advance.display = s.display := rfl
@[simp] theorem advance_drawFlag (s : State) : s.advance.drawFlag = s.drawFlag := rfl
@[simp] theorem advance_fault (s : State) : s.advance.fault = s.fault := rfl
@[simp] theorem advance_draws (s : State) : s.advance.draws = s.draws := rfl

/-! ### `skip` -/

@[simp] theorem skip_mem (s : State) : s.skip.mem = s.mem := rfl
@[simp] theorem skip_v (s : State) : s.skip.v = s.v := rfl
@[simp] theorem skip_i (s : State) : s.skip.i = s.i := rfl
@[simp] theorem skip_pc (s : State) : s.skip.pc = s.pc + 4 := rfl
@[simp] theorem skip_sp (s : State) : s.skip.sp = s.sp := rfl
@[simp] theorem skip_stack (s : State) : s.skip.stack = s.stack := rfl
@[simp] theorem skip_dt (s : State) : s.skip.dt = s.dt := rfl
@[simp] theorem skip_st (s : State) : s.skip.st = s.st := rfl
@[simp] theorem skip_keys (s : State) : s.skip.keys = s.keys := rfl
@[simp] theorem skip_display (s : State) : s.skip.display = s.display := rfl
@[simp] theorem skip_drawFlag (s : State) : s.skip.drawFlag = s.drawFlag := rfl
@[simp] theorem skip_fault (s : State) : s.skip.fault = s.fault := rfl
@[simp] theorem skip_draws (s : State) : s.skip.draws = s.draws := rfl

/-! ### `jumpTo` -/

@[simp] theorem jumpTo_mem (s : State) (w : Word) : (s.jumpTo w).mem = s.mem := rfl
@[simp] theorem jumpTo_v (s : State) (w : Word) : (s.jumpTo w).v = s.v := rfl
@[simp] theorem jumpTo_i (s : State) (w : Word) : (s.jumpTo w).i = s.i := rfl
@[simp] theorem jumpTo_pc (s : State) (w : Word) : (s.jumpTo w).pc = w := rfl
@[simp] theorem jumpTo_sp (s : State) (w : Word) : (s.jumpTo w).sp = s.sp := rfl
@[simp] theorem jumpTo_stack (s : State) (w : Word) : (s.jumpTo w).stack = s.stack := rfl
@[simp] theorem jumpTo_dt (s : State) (w : Word) : (s.jumpTo w).dt = s.dt := rfl
@[simp] theorem jumpTo_st (s : State) (w : Word) : (s.jumpTo w).st = s.st := rfl
@[simp] theorem jumpTo_keys (s : State) (w : Word) : (s.jumpTo w).keys = s.keys := rfl
@[simp] theorem jumpTo_display (s : State) (w : Word) : (s.jumpTo w).display = s.display := rfl
@[simp] theorem jumpTo_drawFlag (s : State) (w : Word) : (s.jumpTo w).drawFlag = s.drawFlag := rfl
@[simp] theorem jumpTo_fault (s : State) (w : Word) : (s.jumpTo w).fault = s.fault := rfl
@[simp] theorem jumpTo_draws (s : State) (w : Word) : (s.jumpTo w).draws = s.draws := rfl

/-! ### `setV` -/

@[simp] theorem setV_mem (s : State) (x : Reg) (b : Byte) : (s.setV x b).mem = s.mem := rfl
@[simp] theorem setV_v (s : State) (x : Reg) (b : Byte) : (s.setV x b).v = s.v.set x b := rfl
@[simp] theorem setV_i (s : State) (x : Reg) (b : Byte) : (s.setV x b).i = s.i := rfl
@[simp] theorem setV_pc (s : State) (x : Reg) (b : Byte) : (s.setV x b).pc = s.pc := rfl
@[simp] theorem setV_sp (s : State) (x : Reg) (b : Byte) : (s.setV x b).sp = s.sp := rfl
@[simp] theorem setV_stack (s : State) (x : Reg) (b : Byte) : (s.setV x b).stack = s.stack := rfl
@[simp] theorem setV_dt (s : State) (x : Reg) (b : Byte) : (s.setV x b).dt = s.dt := rfl
@[simp] theorem setV_st (s : State) (x : Reg) (b : Byte) : (s.setV x b).st = s.st := rfl
@[simp] theorem setV_keys (s : State) (x : Reg) (b : Byte) : (s.setV x b).keys = s.keys := rfl
@[simp] theorem setV_display (s : State) (x : Reg) (b : Byte) : (s.setV x b).display = s.display := rfl
@[simp] theorem setV_drawFlag (s : State) (x : Reg) (b : Byte) : (s.setV x b).drawFlag = s.drawFlag := rfl
@[simp] theorem setV_fault (s : State) (x : Reg) (b : Byte) : (s.setV x b).fault = s.fault := rfl
@[simp] theorem setV_draws (s : State) (x : Reg) (b : Byte) : (s.setV x b).draws = s.draws := rfl

/-! ### `setI` -/

@[simp] theorem setI_mem (s : State) (w : Word) : (s.setI w).mem = s.mem := rfl
@[simp] theorem setI_v (s : State) (w : Word) : (s.setI w).v = s.v := rfl
@[simp] theorem setI_i (s : State) (w : Word) : (s.setI w).i = w := rfl
@[simp] theorem setI_pc (s : State) (w : Word) : (s.setI w).pc = s.pc := rfl
@[simp] theorem setI_sp (s : State) (w : Word) : (s.setI w).sp = s.sp := rfl
@[simp] theorem setI_stack (s : State) (w : Word) : (s.setI w).stack = s.stack := rfl
@[simp] theorem setI_dt (s : State) (w : Word) : (s.setI w).dt = s.dt := rfl
@[simp] theorem setI_st (s : State) (w : Word) : (s.setI w).st = s.st := rfl
@[simp] theorem setI_keys (s : State) (w : Word) : (s.setI w).keys = s.keys := rfl
@[simp] theorem setI_display (s : State) (w : Word) : (s.setI w).display = s.display := rfl
@[simp] theorem setI_drawFlag (s : State) (w : Word) : (s.setI w).drawFlag = s.drawFlag := rfl
@[simp] theorem setI_fault (s : State) (w : Word) : (s.setI w).fault = s.fault := rfl
@[simp] theorem setI_draws (s : State) (w : Word) : (s.setI w).draws = s.draws := rfl

/-! ### `pushPc` -/

@[simp] theorem pushPc_mem (s : State) (h : s.sp.val < 16) : (s.pushPc h).mem = s.mem := rfl
@[simp] theorem pushPc_v (s : State) (h : s.sp.val < 16) : (s.pushPc h).v = s.v := rfl
@[simp] theorem pushPc_i (s : State) (h : s.sp.val < 16) : (s.pushPc h).i = s.i := rfl
@[simp] theorem pushPc_pc (s : State) (h : s.sp.val < 16) : (s.pushPc h).pc = s.pc := rfl
@[simp] theorem pushPc_stack (s : State) (h : s.sp.val < 16) : (s.pushPc h).stack = s.stack.set s.sp.val s.pc := rfl
@[simp] theorem pushPc_dt (s : State) (h : s.sp.val < 16) : (s.pushPc h).dt = s.dt := rfl
@[simp] theorem pushPc_st (s : State) (h : s.sp.val < 16) : (s.pushPc h).st = s.st := rfl
@[simp] theorem pushPc_keys (s : State) (h : s.sp.val < 16) : (s.pushPc h).keys = s.keys := rfl
@[simp] theorem pushPc_display (s : State) (h : s.sp.val < 16) : (s.pushPc h).display = s.display := rfl
@[simp] theorem pushPc_drawFlag (s : State) (h : s.sp.val < 16) : (s.pushPc h).drawFlag = s.drawFlag := rfl
@[simp] theorem pushPc_fault (s : State) (h : s.sp.val < 16) : (s.pushPc h).fault = s.fault := rfl
@[simp] theorem pushPc_draws (s : State) (h : s.sp.val < 16) : (s.pushPc h).draws = s.draws := rfl

/-! ### `popPc` -/

@[simp] theorem popPc_mem (s : State) (h : 0 < s.sp.val) : (s.popPc h).mem = s.mem := rfl
@[simp] theorem popPc_v (s : State) (h : 0 < s.sp.val) : (s.popPc h).v = s.v := rfl
@[simp] theorem popPc_i (s : State) (h : 0 < s.sp.val) : (s.popPc h).i = s.i := rfl
@[simp] theorem popPc_pc (s : State) (h : 0 < s.sp.val) : (s.popPc h).pc = s.stack[s.sp.val - 1] := rfl
@[simp] theorem popPc_stack (s : State) (h : 0 < s.sp.val) : (s.popPc h).stack = s.stack := rfl
@[simp] theorem popPc_dt (s : State) (h : 0 < s.sp.val) : (s.popPc h).dt = s.dt := rfl
@[simp] theorem popPc_st (s : State) (h : 0 < s.sp.val) : (s.popPc h).st = s.st := rfl
@[simp] theorem popPc_keys (s : State) (h : 0 < s.sp.val) : (s.popPc h).keys = s.keys := rfl
@[simp] theorem popPc_display (s : State) (h : 0 < s.sp.val) : (s.popPc h).display = s.display := rfl
@[simp] theorem popPc_drawFlag (s : State) (h : 0 < s.sp.val) : (s.popPc h).drawFlag = s.drawFlag := rfl
@[simp] theorem popPc_fault (s : State) (h : 0 < s.sp.val) : (s.popPc h).fault = s.fault := rfl
@[simp] theorem popPc_draws (s : State) (h : 0 < s.sp.val) : (s.popPc h).draws = s.draws := rfl

/-! ### `latchFault` -/

@[simp] theorem latchFault_mem (s : State) (c : FaultCause) (w : Word) : (s.latchFault c w).mem = s.mem := rfl
@[simp] theorem latchFault_v (s : State) (c : FaultCause) (w : Word) : (s.latchFault c w).v = s.v := rfl
@[simp] theorem latchFault_i (s : State) (c : FaultCause) (w : Word) : (s.latchFault c w).i = s.i := rfl
@[simp] theorem latchFault_pc (s : State) (c : FaultCause) (w : Word) : (s.latchFault c w).pc = s.pc := rfl
@[simp] theorem latchFault_sp (s : State) (c : FaultCause) (w : Word) : (s.latchFault c w).sp = s.sp := rfl
@[simp] theorem latchFault_stack (s : State) (c : FaultCause) (w : Word) : (s.latchFault c w).stack = s.stack := rfl
@[simp] theorem latchFault_dt (s : State) (c : FaultCause) (w : Word) : (s.latchFault c w).dt = s.dt := rfl
@[simp] theorem latchFault_st (s : State) (c : FaultCause) (w : Word) : (s.latchFault c w).st = s.st := rfl
@[simp] theorem latchFault_keys (s : State) (c : FaultCause) (w : Word) : (s.latchFault c w).keys = s.keys := rfl
@[simp] theorem latchFault_display (s : State) (c : FaultCause) (w : Word) : (s.latchFault c w).display = s.display := rfl
@[simp] theorem latchFault_drawFlag (s : State) (c : FaultCause) (w : Word) : (s.latchFault c w).drawFlag = s.drawFlag := rfl
@[simp] theorem latchFault_fault (s : State) (c : FaultCause) (w : Word) : (s.latchFault c w).fault = ⟨c, s.pc, w⟩ := rfl
@[simp] theorem latchFault_draws (s : State) (c : FaultCause) (w : Word) : (s.latchFault c w).draws = s.draws := rfl

/-! ### `placeWord` -/

@[simp] theorem placeWord_v (s : State) (w : Word) : (placeWord s w).v = s.v := rfl
@[simp] theorem placeWord_i (s : State) (w : Word) : (placeWord s w).i = s.i := rfl
@[simp] theorem placeWord_pc (s : State) (w : Word) : (placeWord s w).pc = s.pc := rfl
@[simp] theorem placeWord_sp (s : State) (w : Word) : (placeWord s w).sp = s.sp := rfl
@[simp] theorem placeWord_stack (s : State) (w : Word) : (placeWord s w).stack = s.stack := rfl
@[simp] theorem placeWord_dt (s : State) (w : Word) : (placeWord s w).dt = s.dt := rfl
@[simp] theorem placeWord_st (s : State) (w : Word) : (placeWord s w).st = s.st := rfl
@[simp] theorem placeWord_keys (s : State) (w : Word) : (placeWord s w).keys = s.keys := rfl
@[simp] theorem placeWord_display (s : State) (w : Word) : (placeWord s w).display = s.display := rfl
@[simp] theorem placeWord_drawFlag (s : State) (w : Word) : (placeWord s w).drawFlag = s.drawFlag := rfl
@[simp] theorem placeWord_fault (s : State) (w : Word) : (placeWord s w).fault = s.fault := rfl
@[simp] theorem placeWord_draws (s : State) (w : Word) : (placeWord s w).draws = s.draws := rfl

/-! ### `resetEvent` -/

@[simp] theorem resetEvent_mem (s : State) : (resetEvent s).mem = State.reset.mem := rfl
@[simp] theorem resetEvent_v (s : State) : (resetEvent s).v = State.reset.v := rfl
@[simp] theorem resetEvent_i (s : State) : (resetEvent s).i = State.reset.i := rfl
@[simp] theorem resetEvent_pc (s : State) : (resetEvent s).pc = State.reset.pc := rfl
@[simp] theorem resetEvent_sp (s : State) : (resetEvent s).sp = State.reset.sp := rfl
@[simp] theorem resetEvent_stack (s : State) : (resetEvent s).stack = State.reset.stack := rfl
@[simp] theorem resetEvent_dt (s : State) : (resetEvent s).dt = State.reset.dt := rfl
@[simp] theorem resetEvent_st (s : State) : (resetEvent s).st = State.reset.st := rfl
@[simp] theorem resetEvent_keys (s : State) : (resetEvent s).keys = State.reset.keys := rfl
@[simp] theorem resetEvent_display (s : State) : (resetEvent s).display = State.reset.display := rfl
@[simp] theorem resetEvent_drawFlag (s : State) : (resetEvent s).drawFlag = State.reset.drawFlag := rfl
@[simp] theorem resetEvent_fault (s : State) : (resetEvent s).fault = State.reset.fault := rfl
@[simp] theorem resetEvent_draws (s : State) : (resetEvent s).draws = s.draws := rfl

/-! ### `tick` -/

@[simp] theorem tick_mem (s : State) : (tick s).mem = s.mem := rfl
@[simp] theorem tick_v (s : State) : (tick s).v = s.v := rfl
@[simp] theorem tick_i (s : State) : (tick s).i = s.i := rfl
@[simp] theorem tick_pc (s : State) : (tick s).pc = s.pc := rfl
@[simp] theorem tick_sp (s : State) : (tick s).sp = s.sp := rfl
@[simp] theorem tick_stack (s : State) : (tick s).stack = s.stack := rfl
@[simp] theorem tick_dt (s : State) : (tick s).dt = countDown s.dt := rfl
@[simp] theorem tick_st (s : State) : (tick s).st = countDown s.st := rfl
@[simp] theorem tick_keys (s : State) : (tick s).keys = s.keys := rfl
@[simp] theorem tick_display (s : State) : (tick s).display = s.display := rfl
@[simp] theorem tick_drawFlag (s : State) : (tick s).drawFlag = s.drawFlag := rfl
@[simp] theorem tick_fault (s : State) : (tick s).fault = s.fault := rfl
@[simp] theorem tick_draws (s : State) : (tick s).draws = s.draws := rfl

/-! ### `setKey` -/

@[simp] theorem setKey_mem (s : State) (k : Fin 16) (b : Bool) : (setKey k b s).mem = s.mem := rfl
@[simp] theorem setKey_v (s : State) (k : Fin 16) (b : Bool) : (setKey k b s).v = s.v := rfl
@[simp] theorem setKey_i (s : State) (k : Fin 16) (b : Bool) : (setKey k b s).i = s.i := rfl
@[simp] theorem setKey_pc (s : State) (k : Fin 16) (b : Bool) : (setKey k b s).pc = s.pc := rfl
@[simp] theorem setKey_sp (s : State) (k : Fin 16) (b : Bool) : (setKey k b s).sp = s.sp := rfl
@[simp] theorem setKey_stack (s : State) (k : Fin 16) (b : Bool) : (setKey k b s).stack = s.stack := rfl
@[simp] theorem setKey_dt (s : State) (k : Fin 16) (b : Bool) : (setKey k b s).dt = s.dt := rfl
@[simp] theorem setKey_st (s : State) (k : Fin 16) (b : Bool) : (setKey k b s).st = s.st := rfl
@[simp] theorem setKey_keys (s : State) (k : Fin 16) (b : Bool) : (setKey k b s).keys = s.keys.set k b := rfl
@[simp] theorem setKey_display (s : State) (k : Fin 16) (b : Bool) : (setKey k b s).display = s.display := rfl
@[simp] theorem setKey_drawFlag (s : State) (k : Fin 16) (b : Bool) : (setKey k b s).drawFlag = s.drawFlag := rfl
@[simp] theorem setKey_fault (s : State) (k : Fin 16) (b : Bool) : (setKey k b s).fault = s.fault := rfl
@[simp] theorem setKey_draws (s : State) (k : Fin 16) (b : Bool) : (setKey k b s).draws = s.draws := rfl

/-! ### `drawAck` -/

@[simp] theorem drawAck_mem (s : State) : (drawAck s).mem = s.mem := rfl
@[simp] theorem drawAck_v (s : State) : (drawAck s).v = s.v := rfl
@[simp] theorem drawAck_i (s : State) : (drawAck s).i = s.i := rfl
@[simp] theorem drawAck_pc (s : State) : (drawAck s).pc = s.pc := rfl
@[simp] theorem drawAck_sp (s : State) : (drawAck s).sp = s.sp := rfl
@[simp] theorem drawAck_stack (s : State) : (drawAck s).stack = s.stack := rfl
@[simp] theorem drawAck_dt (s : State) : (drawAck s).dt = s.dt := rfl
@[simp] theorem drawAck_st (s : State) : (drawAck s).st = s.st := rfl
@[simp] theorem drawAck_keys (s : State) : (drawAck s).keys = s.keys := rfl
@[simp] theorem drawAck_display (s : State) : (drawAck s).display = s.display := rfl
@[simp] theorem drawAck_drawFlag (s : State) : (drawAck s).drawFlag = false := rfl
@[simp] theorem drawAck_fault (s : State) : (drawAck s).fault = s.fault := rfl
@[simp] theorem drawAck_draws (s : State) : (drawAck s).draws = s.draws := rfl

@[simp] theorem pushPc_sp_val (s : State) (h : s.sp.val < 16) : (s.pushPc h).sp.val = s.sp.val + 1 := rfl

@[simp] theorem popPc_sp_val (s : State) (h : 0 < s.sp.val) : (s.popPc h).sp.val = s.sp.val - 1 := rfl

/-! ### `skipIf` -/

@[simp] theorem skipIf_true (s : State) : s.skipIf true = s.skip := rfl

@[simp] theorem skipIf_false (s : State) : s.skipIf false = s.advance := rfl

/-- A skip changes `PC` alone, by 4 or by 2. -/
theorem skipIf_eq (s : State) (c : Bool) : s.skipIf c = { s with pc := if c then s.pc + 4 else s.pc + 2 } := by
  cases c <;> rfl

@[simp] theorem skipIf_pc (s : State) (c : Bool) : (s.skipIf c).pc = if c then s.pc + 4 else s.pc + 2 := by
  cases c <;> rfl

@[simp] theorem skipIf_mem (s : State) (c : Bool) : (s.skipIf c).mem = s.mem := by cases c <;> rfl
@[simp] theorem skipIf_v (s : State) (c : Bool) : (s.skipIf c).v = s.v := by cases c <;> rfl
@[simp] theorem skipIf_i (s : State) (c : Bool) : (s.skipIf c).i = s.i := by cases c <;> rfl
@[simp] theorem skipIf_sp (s : State) (c : Bool) : (s.skipIf c).sp = s.sp := by cases c <;> rfl
@[simp] theorem skipIf_stack (s : State) (c : Bool) : (s.skipIf c).stack = s.stack := by cases c <;> rfl
@[simp] theorem skipIf_dt (s : State) (c : Bool) : (s.skipIf c).dt = s.dt := by cases c <;> rfl
@[simp] theorem skipIf_st (s : State) (c : Bool) : (s.skipIf c).st = s.st := by cases c <;> rfl
@[simp] theorem skipIf_keys (s : State) (c : Bool) : (s.skipIf c).keys = s.keys := by cases c <;> rfl
@[simp] theorem skipIf_display (s : State) (c : Bool) : (s.skipIf c).display = s.display := by cases c <;> rfl
@[simp] theorem skipIf_drawFlag (s : State) (c : Bool) : (s.skipIf c).drawFlag = s.drawFlag := by cases c <;> rfl
@[simp] theorem skipIf_fault (s : State) (c : Bool) : (s.skipIf c).fault = s.fault := by cases c <;> rfl
@[simp] theorem skipIf_draws (s : State) (c : Bool) : (s.skipIf c).draws = s.draws := by cases c <;> rfl

/-! ### Registers -/

@[simp] theorem getV_eq (s : State) (x : Reg) : s.getV x = s.v[x] := rfl

/-- Reading a register after writing one, for any two registers, `VF` among them (10_state.md R11, R12). -/
theorem set_getElem (v : Vector Byte 16) (x y : Reg) (b : Byte) : (v.set x b)[y] = if y = x then b else v[y] := by
  simp [Vector.getElem_set, Fin.ext_iff, eq_comm]

@[simp] theorem set_getElem_same (v : Vector Byte 16) (x : Reg) (b : Byte) : (v.set x b)[x] = b := by
  simp

theorem set_getElem_of_ne (v : Vector Byte 16) (x y : Reg) (b : Byte) (h : y ≠ x) : (v.set x b)[y] = v[y] := by
  rw [set_getElem, if_neg h]

end Sys2Proof.Machine
end

