-- ==== Sys2Proof/Laws/Exec.lean ====
section
/-! SUPPORT. What each shared operation can do, said once: the provers cite these and do not unfold the operations. -/

namespace Sys2Proof.Machine

/-! ### Faults and checks -/

/-- Taking a fault is a next state with the latch set and nothing else changed (60_exceptions.md R126). -/
theorem raiseFault_eq (c : FaultCause) (w : Word) (s : State) :
    raiseFault c w s = .next { s with fault := ⟨c, s.pc, w⟩ } := rfl

/-- The range check in numbers (20_memory.md R35). -/
theorem dataFits_iff (base count : Nat) : dataFits base count = true ↔ count = 0 ∨ base + (count - 1) ≤ 4095 := by
  simp [dataFits]

theorem checkData_of_fits (count : Nat) (s after : State) (h : count = 0 ∨ s.i.toNat + (count - 1) ≤ 4095) :
    checkData count s after = .next after := by
  rw [checkData, if_pos ((dataFits_iff _ _).mpr h)]

theorem checkData_of_not_fits (count : Nat) (s after : State) (h : count ≠ 0) (h' : 4095 < s.i.toNat + (count - 1)) :
    checkData count s after = .next { s with fault := ⟨.dataOutOfRange, s.pc, s.i⟩ } := by
  rw [checkData, if_neg (by rw [dataFits_iff]; omega)]
  rfl

/-- The data check ends in the state after the access, where the footprint fits, or in the fault. -/
theorem checkData_cases (count : Nat) (s after t : State) (h : checkData count s after = .next t) :
    ((count = 0 ∨ s.i.toNat + (count - 1) ≤ 4095) ∧ t = after) ∨
    (count ≠ 0 ∧ 4095 < s.i.toNat + (count - 1) ∧ t = { s with fault := ⟨.dataOutOfRange, s.pc, s.i⟩ }) := by
  by_cases hf : count = 0 ∨ s.i.toNat + (count - 1) ≤ 4095
  · rw [checkData_of_fits _ _ _ hf] at h
    exact .inl ⟨hf, (Host.Outcome.next.inj h).symm⟩
  · rw [checkData_of_not_fits _ _ _ (by omega) (by omega)] at h
    exact .inr ⟨by omega, by omega, (Host.Outcome.next.inj h).symm⟩

theorem checkKey_of_key (x : Reg) (s : State) (after : Fin 16 → State) (k : Fin 16) (h : s.v[x].toNat = k.val) :
    checkKey x s after = .next (after k) := by
  have hlt : (s.getV x).toNat < 16 := by rw [getV_eq, h]; exact k.isLt
  rw [checkKey, dif_pos hlt, show (⟨(s.getV x).toNat, hlt⟩ : Fin 16) = k from Fin.ext h]

theorem checkKey_of_no_key (x : Reg) (s : State) (after : Fin 16 → State) (h : 15 < s.v[x].toNat) :
    checkKey x s after = .next { s with fault := ⟨.keyIndexOutOfRange, s.pc, s.v[x].setWidth 16⟩ } := by
  rw [checkKey, dif_neg (by rw [getV_eq]; omega)]
  rfl

/-- The key check ends in the state after the key, where `V[x]` names one, or in the fault. -/
theorem checkKey_cases (x : Reg) (s : State) (after : Fin 16 → State) (t : State) (h : checkKey x s after = .next t) :
    (∃ k : Fin 16, s.v[x].toNat = k.val ∧ t = after k) ∨
    (15 < s.v[x].toNat ∧ t = { s with fault := ⟨.keyIndexOutOfRange, s.pc, s.v[x].setWidth 16⟩ }) := by
  by_cases hk : s.v[x].toNat < 16
  · rw [checkKey_of_key x s after ⟨_, hk⟩ rfl] at h
    exact .inl ⟨⟨_, hk⟩, rfl, (Host.Outcome.next.inj h).symm⟩
  · rw [checkKey_of_no_key x s after (by omega)] at h
    exact .inr ⟨by omega, (Host.Outcome.next.inj h).symm⟩

/-- The key scan: the least pressed key. -/
theorem leastKey_eq_some (keys : Vector Bool 16) (k : Fin 16) (h : keys[k] = true)
    (least : ∀ j : Fin 16, j < k → keys[j] = false) : leastKey keys = some k := by
  rw [leastKey, List.find?_eq_some_iff_getElem]
  exact ⟨h, k.val, by simp, by simp, fun j hj => by simpa using least ⟨j, by omega⟩ hj⟩

theorem leastKey_pressed (keys : Vector Bool 16) (k : Fin 16) (h : leastKey keys = some k) : keys[k] = true :=
  List.find?_some (p := fun k : Fin 16 => keys[k]) h

theorem not_pressed_of_leastKey_eq_none (keys : Vector Bool 16) (h : leastKey keys = none) (k : Fin 16) :
    keys[k] = false := by
  simpa using List.find?_eq_none.mp h k (List.mem_finRange k)

theorem leastKey_eq_none (keys : Vector Bool 16) (h : ∀ k : Fin 16, keys[k] = false) : leastKey keys = none := by
  rw [leastKey, List.find?_eq_none]
  intro k _
  simpa using h k

/-! ### Register blocks -/

/-- A block load puts consecutive bytes into the first registers and leaves the rest (42_index_memory.md R100). -/
theorem loadBlock_getElem (m : Memory) (base count : Nat) (v : Vector Byte 16) (r : Reg) :
    (loadBlock m base count v)[r] = if r.val < count then m.read (base + r.val) else v[r] := by
  induction count with
  | zero => simp [loadBlock]
  | succ k ih =>
    simp only [loadBlock, Fin.getElem_fin] at *
    by_cases h : r.val = k
    · subst h
      rw [Vector.getElem_setIfInBounds_self, if_pos (by omega)]
    · rw [Vector.getElem_setIfInBounds_ne _ (Ne.symm h), ih]
      by_cases h' : r.val < k
      · rw [if_pos h', if_pos (by omega)]
      · rw [if_neg h', if_neg (by omega)]

@[simp] theorem regsUpTo_length (s : State) (x : Reg) : (s.regsUpTo x).length = x.val + 1 := by
  simp [State.regsUpTo]

theorem regsUpTo_getElem (s : State) (x : Reg) (j : Nat) (h : j < (s.regsUpTo x).length) (h' : j < 16) :
    (s.regsUpTo x)[j] = s.v[j] := by
  simp [State.regsUpTo]

/-! ### The instructions with more than one outcome -/

theorem execRet_of_live (s : State) (live : 0 < s.sp.val) : execRet s = .next (s.popPc live).advance := by
  rw [execRet, dif_pos live]

theorem execRet_of_empty (s : State) (h : s.sp.val = 0) :
    execRet s = .next { s with fault := ⟨.stackUnderflow, s.pc, 0⟩ } := by
  rw [execRet, dif_neg (by omega)]
  rfl

theorem execRet_cases (s t : State) (h : execRet s = .next t) :
    (∃ live : 0 < s.sp.val, t = (s.popPc live).advance) ∨
    (s.sp.val = 0 ∧ t = { s with fault := ⟨.stackUnderflow, s.pc, 0⟩ }) := by
  by_cases live : 0 < s.sp.val
  · rw [execRet_of_live s live] at h
    exact .inl ⟨live, (Host.Outcome.next.inj h).symm⟩
  · rw [execRet_of_empty s (by omega)] at h
    exact .inr ⟨by omega, (Host.Outcome.next.inj h).symm⟩

theorem execCall_of_room (nnn : BitVec 12) (s : State) (room : s.sp.val < 16) :
    execCall nnn s = .next ((s.pushPc room).jumpTo (zext12 nnn)) := by
  rw [execCall, dif_pos room]

theorem execCall_of_full (nnn : BitVec 12) (s : State) (h : s.sp.val = 16) :
    execCall nnn s = .next { s with fault := ⟨.stackOverflow, s.pc, 16⟩ } := by
  rw [execCall, dif_neg (by omega)]
  rfl

theorem execCall_cases (nnn : BitVec 12) (s t : State) (h : execCall nnn s = .next t) :
    (∃ room : s.sp.val < 16, t = (s.pushPc room).jumpTo (zext12 nnn)) ∨
    (s.sp.val = 16 ∧ t = { s with fault := ⟨.stackOverflow, s.pc, 16⟩ }) := by
  by_cases room : s.sp.val < 16
  · rw [execCall_of_room nnn s room] at h
    exact .inl ⟨room, (Host.Outcome.next.inj h).symm⟩
  · have hfull : s.sp.val = 16 := by have := s.sp.isLt; omega
    rw [execCall_of_full nnn s hfull] at h
    exact .inr ⟨hfull, (Host.Outcome.next.inj h).symm⟩

theorem execSkp_of_key (x : Reg) (s : State) (k : Fin 16) (h : s.v[x].toNat = k.val) :
    execSkp x s = .next (s.skipIf s.keys[k]) :=
  checkKey_of_key x s (fun k => s.skipIf s.keys[k]) k h

theorem execSkp_of_no_key (x : Reg) (s : State) (h : 15 < s.v[x].toNat) :
    execSkp x s = .next { s with fault := ⟨.keyIndexOutOfRange, s.pc, s.v[x].setWidth 16⟩ } :=
  checkKey_of_no_key x s (fun k => s.skipIf s.keys[k]) h

theorem execSknp_of_key (x : Reg) (s : State) (k : Fin 16) (h : s.v[x].toNat = k.val) :
    execSknp x s = .next (s.skipIf (!s.keys[k])) :=
  checkKey_of_key x s (fun k => s.skipIf (!s.keys[k])) k h

theorem execSknp_of_no_key (x : Reg) (s : State) (h : 15 < s.v[x].toNat) :
    execSknp x s = .next { s with fault := ⟨.keyIndexOutOfRange, s.pc, s.v[x].setWidth 16⟩ } :=
  checkKey_of_no_key x s (fun k => s.skipIf (!s.keys[k])) h

theorem execSkp_cases (x : Reg) (s t : State) (h : execSkp x s = .next t) :
    (∃ k : Fin 16, s.v[x].toNat = k.val ∧ t = s.skipIf s.keys[k]) ∨
    (15 < s.v[x].toNat ∧ t = { s with fault := ⟨.keyIndexOutOfRange, s.pc, s.v[x].setWidth 16⟩ }) :=
  checkKey_cases x s (fun k => s.skipIf s.keys[k]) t h

theorem execSknp_cases (x : Reg) (s t : State) (h : execSknp x s = .next t) :
    (∃ k : Fin 16, s.v[x].toNat = k.val ∧ t = s.skipIf (!s.keys[k])) ∨
    (15 < s.v[x].toNat ∧ t = { s with fault := ⟨.keyIndexOutOfRange, s.pc, s.v[x].setWidth 16⟩ }) :=
  checkKey_cases x s (fun k => s.skipIf (!s.keys[k])) t h

theorem execLdVxK_of_least (x : Reg) (s : State) (k : Fin 16) (h : leastKey s.keys = some k) :
    execLdVxK x s = .next (s.setV x (.ofNat 8 k.val)).advance := by
  rw [execLdVxK, h]

theorem execLdVxK_of_none (x : Reg) (s : State) (h : leastKey s.keys = none) : execLdVxK x s = .next s := by
  rw [execLdVxK, h]

theorem execLdVxK_cases (x : Reg) (s t : State) (h : execLdVxK x s = .next t) :
    (∃ k, leastKey s.keys = some k ∧ t = (s.setV x (.ofNat 8 k.val)).advance) ∨
    (leastKey s.keys = none ∧ t = s) := by
  cases hk : leastKey s.keys with
  | some k =>
    rw [execLdVxK_of_least x s k hk] at h
    exact .inl ⟨k, rfl, (Host.Outcome.next.inj h).symm⟩
  | none =>
    rw [execLdVxK_of_none x s hk] at h
    exact .inr ⟨rfl, (Host.Outcome.next.inj h).symm⟩

/-! ### The step -/

/-- A fetch succeeds exactly up to 0xFFE, with the big-endian word at `PC` (20_memory.md R33, R34). -/
theorem fetchWord_eq_some (s : State) (w : Word) :
    fetchWord s = some w ↔
      s.pc.toNat ≤ 0xFFE ∧ w = s.mem.read s.pc.toNat ++ s.mem.read (s.pc.toNat + 1) := by
  unfold fetchWord
  split
  · simp [*, wordOfBytes, eq_comm]
  · simp [*]

/-- Everything a step that answers a next state can have done: run the word it fetched, or latched a fetch fault. -/
theorem step_cases (s t : State) (h : step s = .next t) :
    s.unfaulted ∧
    ((∃ w, fetchWord s = some w ∧ s.pc.toNat ≤ 0xFFE ∧ exec (decodeWord w) s = .next t) ∨
     (0xFFE < s.pc.toNat ∧ t = { s with fault := ⟨.fetchOutOfRange, s.pc, s.pc⟩ })) := by
  unfold step at h
  split at h
  · refine ⟨‹_›, ?_⟩
    split at h
    · exact .inl ⟨_, ‹_›, ((fetchWord_eq_some s _).mp ‹_›).1, h⟩
    · refine .inr ⟨?_, (Host.Outcome.next.inj h).symm⟩
      rename_i hn
      unfold fetchWord at hn
      split at hn
      · cases hn
      · omega
  · cases h

/-! ### The events (00_scope.md R1) -/

/-- A draw gives the free byte at the counter, and the counter moves on (log entry 2). -/
theorem execRnd_eq (x : Reg) (kk : Byte) (s : State) :
    execRnd x kk s = .next (State.setV x (Config.rnd s.draws &&& kk) { s with draws := s.draws + 1 }).advance := rfl

/-- `Cxkk` draws once. -/
theorem exec_rnd_draws (x : Reg) (kk : Byte) (s t : State) (h : exec (.rnd x kk) s = .next t) :
    t.draws = s.draws + 1 := by
  cases h
  rfl

/-- No other instruction draws. -/
theorem exec_draws_cases (i : Instr) (s t : State) (h : exec i s = .next t) :
    (∃ x kk, i = .rnd x kk) ∨ t.draws = s.draws := by
  cases i with
  | rnd x kk => exact .inl ⟨x, kk, rfl⟩
  | ret => obtain ⟨_, rfl⟩ | ⟨_, rfl⟩ := execRet_cases _ _ h <;> simp
  | call nnn => obtain ⟨_, rfl⟩ | ⟨_, rfl⟩ := execCall_cases _ _ _ h <;> simp
  | drw | ldBVx | storeRegs | loadRegs => obtain ⟨_, rfl⟩ | ⟨_, _, rfl⟩ := checkData_cases _ _ _ _ h <;> simp
  | skp x => obtain ⟨_, _, rfl⟩ | ⟨_, rfl⟩ := execSkp_cases _ _ _ h <;> simp
  | sknp x => obtain ⟨_, _, rfl⟩ | ⟨_, rfl⟩ := execSknp_cases _ _ _ h <;> simp
  | ldVxK x => obtain ⟨_, _, rfl⟩ | ⟨_, rfl⟩ := execLdVxK_cases _ _ _ h <;> simp
  | _ => cases h; simp

theorem loadProgram_of_fits (bytes : List Byte) (s : State) (h : bytes.length ≤ 3584) :
    loadProgram bytes s = (.loaded, { s with mem := s.mem.writeBytes 0x200 bytes }) := by
  rw [loadProgram, if_neg (by rw [progMaxLen_eq]; omega)]

theorem loadProgram_of_too_large (bytes : List Byte) (s : State) (h : 3584 < bytes.length) :
    loadProgram bytes s = (.programTooLarge, s) := by
  rw [loadProgram, if_pos (by rw [progMaxLen_eq]; omega)]

/-- A load touches memory alone. -/
theorem loadProgram_frame (bytes : List Byte) (s : State) :
    (loadProgram bytes s).2 = { s with mem := (loadProgram bytes s).2.mem } := by
  by_cases h : bytes.length ≤ 3584
  · rw [loadProgram_of_fits bytes s h]
  · rw [loadProgram_of_too_large bytes s (by omega)]

/-- Everything an event that happens can have done: a step, a reset, a load, or a change of the outside agents' fields. -/
theorem apply_cases (e : Event) (s t : State) (o : Observation) (h : e.apply s = some (t, o)) :
    (e = .step ∧ step s = .next t) ∨ (e = .reset ∧ t = resetEvent s) ∨
    (∃ bytes, e = .loadProgram bytes ∧ t = (loadProgram bytes s).2) ∨
    (e = .tick ∧ t = tick s) ∨ (∃ k b, e = .setKey k b ∧ t = setKey k b s) ∨ (e = .drawAck ∧ t = drawAck s) ∨
    ((e = .readDisplay ∨ e = .readST) ∧ t = s) := by
  cases e with
  | step =>
    simp only [Event.apply] at h
    split at h
    · cases h
      exact .inl ⟨rfl, ‹_›⟩
    · cases h
    · cases h
  | setKey k b =>
    cases h
    exact .inr (.inr (.inr (.inr (.inl ⟨k, b, rfl, rfl⟩))))
  | tick | reset | loadProgram | readDisplay | drawAck | readST => cases h; simp

/-- What holds at a run's start, and what every event keeps, holds at its end. -/
theorem runEvents_induction (P : State → Prop)
    (keeps : ∀ (e : Event) (s t : State) (o : Observation), P s → e.apply s = some (t, o) → P t)
    (es : List Event) (s t : State) (start : P s) (h : runEvents es s = some t) : P t := by
  induction es generalizing s with
  | nil =>
    cases h
    exact start
  | cons e es ih =>
    unfold runEvents at h
    split at h
    · exact ih _ (keeps e s _ _ start ‹_›) h
    · cases h

end Sys2Proof.Machine
end

