-- ==== Sys2Proof/Laws/PerInstr.lean ====
section
/-! SUPPORT. Statements made for each instruction as syntax, one lemma a constructor. -/

namespace Sys2Proof.Laws

/-- The encoded word of a well-formed instruction is one of the words of R50's rows, and that of an unrecognized word is
not (30_encoding.md R49, R51). -/
def EncodesIntoTheMap.Statement (i : Instr) : Prop :=
  i.wellFormed = true → recognized (encodeWord i) = match i with
    | .unrecognized _ => false
    | _ => true

namespace EncodesIntoTheMap

theorem cls : Statement .cls := fun _ => by decide

theorem ret : Statement .ret := fun _ => by decide

theorem jp (nnn : BitVec 12) : Statement (.jp nnn) := fun _ =>
  recognized_of_accepts (opcodeTable[2]) (List.getElem_mem _) _ (mask_nnn _ _)

theorem call (nnn : BitVec 12) : Statement (.call nnn) := fun _ =>
  recognized_of_accepts (opcodeTable[3]) (List.getElem_mem _) _ (mask_nnn _ _)

theorem seImm (x : Reg) (kk : Byte) : Statement (.seImm x kk) := fun _ =>
  recognized_of_accepts (opcodeTable[4]) (List.getElem_mem _) _ (mask_xkk _ _ _)

theorem sneImm (x : Reg) (kk : Byte) : Statement (.sneImm x kk) := fun _ =>
  recognized_of_accepts (opcodeTable[5]) (List.getElem_mem _) _ (mask_xkk _ _ _)

theorem seReg (x : Reg) (y : Reg) : Statement (.seReg x y) := fun _ =>
  recognized_of_accepts (opcodeTable[6]) (List.getElem_mem _) _ (mask_xy _ _ _ _)

theorem ldImm (x : Reg) (kk : Byte) : Statement (.ldImm x kk) := fun _ =>
  recognized_of_accepts (opcodeTable[7]) (List.getElem_mem _) _ (mask_xkk _ _ _)

theorem addImm (x : Reg) (kk : Byte) : Statement (.addImm x kk) := fun _ =>
  recognized_of_accepts (opcodeTable[8]) (List.getElem_mem _) _ (mask_xkk _ _ _)

theorem ldReg (x : Reg) (y : Reg) : Statement (.ldReg x y) := fun _ =>
  recognized_of_accepts (opcodeTable[9]) (List.getElem_mem _) _ (mask_xy _ _ _ _)

theorem orReg (x : Reg) (y : Reg) : Statement (.orReg x y) := fun _ =>
  recognized_of_accepts (opcodeTable[10]) (List.getElem_mem _) _ (mask_xy _ _ _ _)

theorem andReg (x : Reg) (y : Reg) : Statement (.andReg x y) := fun _ =>
  recognized_of_accepts (opcodeTable[11]) (List.getElem_mem _) _ (mask_xy _ _ _ _)

theorem xorReg (x : Reg) (y : Reg) : Statement (.xorReg x y) := fun _ =>
  recognized_of_accepts (opcodeTable[12]) (List.getElem_mem _) _ (mask_xy _ _ _ _)

theorem addReg (x : Reg) (y : Reg) : Statement (.addReg x y) := fun _ =>
  recognized_of_accepts (opcodeTable[13]) (List.getElem_mem _) _ (mask_xy _ _ _ _)

theorem subReg (x : Reg) (y : Reg) : Statement (.subReg x y) := fun _ =>
  recognized_of_accepts (opcodeTable[14]) (List.getElem_mem _) _ (mask_xy _ _ _ _)

theorem shr (x : Reg) (y : Reg) : Statement (.shr x y) := fun _ =>
  recognized_of_accepts (opcodeTable[15]) (List.getElem_mem _) _ (mask_xy _ _ _ _)

theorem subnReg (x : Reg) (y : Reg) : Statement (.subnReg x y) := fun _ =>
  recognized_of_accepts (opcodeTable[16]) (List.getElem_mem _) _ (mask_xy _ _ _ _)

theorem shl (x : Reg) (y : Reg) : Statement (.shl x y) := fun _ =>
  recognized_of_accepts (opcodeTable[17]) (List.getElem_mem _) _ (mask_xy _ _ _ _)

theorem sneReg (x : Reg) (y : Reg) : Statement (.sneReg x y) := fun _ =>
  recognized_of_accepts (opcodeTable[18]) (List.getElem_mem _) _ (mask_xy _ _ _ _)

theorem ldI (nnn : BitVec 12) : Statement (.ldI nnn) := fun _ =>
  recognized_of_accepts (opcodeTable[19]) (List.getElem_mem _) _ (mask_nnn _ _)

theorem jpV0 (nnn : BitVec 12) : Statement (.jpV0 nnn) := fun _ =>
  recognized_of_accepts (opcodeTable[20]) (List.getElem_mem _) _ (mask_nnn _ _)

theorem rnd (x : Reg) (kk : Byte) : Statement (.rnd x kk) := fun _ =>
  recognized_of_accepts (opcodeTable[21]) (List.getElem_mem _) _ (mask_xkk _ _ _)

theorem drw (x : Reg) (y : Reg) (n : Fin 16) : Statement (.drw x y n) := fun _ =>
  recognized_of_accepts (opcodeTable[22]) (List.getElem_mem _) _ (mask_xyn _ _ _ _)

theorem skp (x : Reg) : Statement (.skp x) := fun _ =>
  recognized_of_accepts (opcodeTable[23]) (List.getElem_mem _) _ (mask_x _ _ _)

theorem sknp (x : Reg) : Statement (.sknp x) := fun _ =>
  recognized_of_accepts (opcodeTable[24]) (List.getElem_mem _) _ (mask_x _ _ _)

theorem ldVxDt (x : Reg) : Statement (.ldVxDt x) := fun _ =>
  recognized_of_accepts (opcodeTable[25]) (List.getElem_mem _) _ (mask_x _ _ _)

theorem ldVxK (x : Reg) : Statement (.ldVxK x) := fun _ =>
  recognized_of_accepts (opcodeTable[26]) (List.getElem_mem _) _ (mask_x _ _ _)

theorem ldDtVx (x : Reg) : Statement (.ldDtVx x) := fun _ =>
  recognized_of_accepts (opcodeTable[27]) (List.getElem_mem _) _ (mask_x _ _ _)

theorem ldStVx (x : Reg) : Statement (.ldStVx x) := fun _ =>
  recognized_of_accepts (opcodeTable[28]) (List.getElem_mem _) _ (mask_x _ _ _)

theorem addIVx (x : Reg) : Statement (.addIVx x) := fun _ =>
  recognized_of_accepts (opcodeTable[29]) (List.getElem_mem _) _ (mask_x _ _ _)

theorem ldFVx (x : Reg) : Statement (.ldFVx x) := fun _ =>
  recognized_of_accepts (opcodeTable[30]) (List.getElem_mem _) _ (mask_x _ _ _)

theorem ldBVx (x : Reg) : Statement (.ldBVx x) := fun _ =>
  recognized_of_accepts (opcodeTable[31]) (List.getElem_mem _) _ (mask_x _ _ _)

theorem storeRegs (x : Reg) : Statement (.storeRegs x) := fun _ =>
  recognized_of_accepts (opcodeTable[32]) (List.getElem_mem _) _ (mask_x _ _ _)

theorem loadRegs (x : Reg) : Statement (.loadRegs x) := fun _ =>
  recognized_of_accepts (opcodeTable[33]) (List.getElem_mem _) _ (mask_x _ _ _)

theorem unrecognized (w : Word) : Statement (.unrecognized w) := fun h => by
  simpa [Instr.wellFormed, encodeWord] using h

end EncodesIntoTheMap

end Sys2Proof.Laws
end

