-- ==== Sys2Proof/Tests/Slice0.lean ====
section
/-! SUPPORT. The model's own tests. Expected values are those of 95_test_vectors.md, whose section each group names; the
decode words are written out from the encodings of 30_encoding.md R50. The last part gives, for each statement with
hypotheses, concrete states and operands that meet them, at the bounds of every clause. -/

namespace Sys2Proof.Tests

open Sys2Proof Sys2Proof.Machine

/-- The next state, where there is one. -/
def next? (r : Result) : Option State :=
  match r with
  | .next t => some t
  | .fault _ => none
  | .refused _ => none

/-- One step that fetches the word `w`. -/
def run (w : Nat) (s : State) : Option State := next? (step (s.withFetchWord 16 w))

/-- The reset state with some registers set. -/
def regs (vs : List (Reg × Byte)) : State := vs.foldl (fun s p => s.setV p.1 p.2) State.reset

/-- Bytes of memory from an address up. -/
def bytes (m : Memory) (a n : Nat) : List Byte := (List.range n).map fun j => m.read (a + j)

/-- The numbers 0x10 to 0x1F in the registers. -/
def rising : State := { State.reset with v := Vector.ofFn fun r => .ofNat 8 (0x10 + r.val) }

/-- The reset state with bytes put into memory from 0x300 up, and `I` there. -/
def sprite (bs : List Byte) (s : State) : State := { s with mem := s.mem.writeBytes 0x300 bs, i := 0x300 }

/-! ### Well-formedness and decoding -/

/-- An unrecognized word that a row accepts is refused. -/
theorem test_wellFormed_refuses_recognized_words :
    (Instr.unrecognized 0x00E0).wellFormed = false ∧ (Instr.unrecognized 0xF065).wellFormed = false := by decide

theorem test_wellFormed_accepts :
    (Instr.unrecognized 0x0000).wellFormed = true ∧ (Instr.drw 15 15 15).wellFormed = true := by decide

theorem test_decode_needs_two_bytes : decode [0x12] = .error .tooFewBytes := by decide

theorem test_decode_is_big_endian : decode [0x12, 0x34, 0x56] = .ok (.jp 0x234, [0x56]) := by decide

theorem test_decode_fixed_and_nnn :
    [0x00E0, 0x00EE, 0x1ABC, 0x2FFF, 0xA2F0, 0xB300].map (decodeTableWord 16) =
      [some .cls, some .ret, some (.jp 0xABC), some (.call 0xFFF), some (.ldI 0x2F0), some (.jpV0 0x300)] := by decide

theorem test_decode_xkk :
    [0x3342, 0x4F43, 0x6A37, 0x7002, 0xC30F].map (decodeTableWord 16) =
      [some (.seImm 3 0x42), some (.sneImm 15 0x43), some (.ldImm 10 0x37), some (.addImm 0 2),
        some (.rnd 3 0x0F)] := by decide

theorem test_decode_xy_and_xyn :
    [0x5120, 0x8120, 0x8121, 0x8122, 0x8123, 0x9120, 0xD7A5].map (decodeTableWord 16) =
      [some (.seReg 1 2), some (.ldReg 1 2), some (.orReg 1 2), some (.andReg 1 2), some (.xorReg 1 2),
        some (.sneReg 1 2), some (.drw 7 10 5)] := by decide

theorem test_decode_flag_rows :
    [0x8124, 0x8125, 0x8AB6, 0x8127, 0x812E].map (decodeTableWord 16) =
      [some (.addReg 1 2), some (.subReg 1 2), some (.shr 10 11), some (.subnReg 1 2), some (.shl 1 2)] := by decide

theorem test_decode_keys_and_timers :
    [0xE49E, 0xE4A1, 0xF507, 0xF10A, 0xF515, 0xF518].map (decodeTableWord 16) =
      [some (.skp 4), some (.sknp 4), some (.ldVxDt 5), some (.ldVxK 1), some (.ldDtVx 5), some (.ldStVx 5)] := by
  decide

theorem test_decode_index_and_memory :
    [0xF01E, 0xFA29, 0xF133, 0xF155, 0xFF65].map (decodeTableWord 16) =
      [some (.addIVx 0), some (.ldFVx 10), some (.ldBVx 1), some (.storeRegs 1), some (.loadRegs 15)] := by decide

/-- The unrecognized words of section 2.1. -/
theorem test_decode_unrecognized :
    [0x0000, 0x0123, 0x00E1, 0x01E0, 0x5341, 0x9341, 0x8128, 0x812F, 0xE19F, 0xF100, 0xF1FF, 0xFFFF].all
      (fun w => decodeTableWord 16 w == some (.unrecognized (.ofNat 16 w))) = true := by decide

/-! ### Control flow (section 2.1) -/

theorem test_ret :
    (run 0x00EE { State.reset with pc := 0xABC, sp := 1, stack := State.reset.stack.set 0 0x300 }).map
      (fun t => (t.sp, t.pc, t.stack[0])) = some (0, 0x302, 0x300) := by decide

theorem test_ret_empty :
    (run 0x00EE State.reset).map (fun t => (t.fault, t.pc, t.sp)) = some (⟨.stackUnderflow, 0x200, 0⟩, 0x200, 0) := by
  decide

theorem test_jp : (run 0x1FFF State.reset).map (·.pc) = some 0xFFF := by decide

theorem test_call :
    (run 0x2ABC { State.reset with pc := 0x300 }).map (fun t => (t.stack[0], t.sp, t.pc)) = some (0x300, 1, 0xABC) := by
  decide

theorem test_call_full :
    (run 0x2200 { State.reset with sp := 16 }).map (fun t => (t.fault, t.sp, t.pc)) =
      some (⟨.stackOverflow, 0x200, 0x10⟩, 16, 0x200) := by decide

theorem test_se_imm :
    ((run 0x3342 (regs [(3, 0x42)])).map (·.pc), (run 0x3343 (regs [(3, 0x42)])).map (·.pc)) =
      (some 0x204, some 0x202) := by decide

theorem test_sne_imm :
    ((run 0x4342 (regs [(3, 0x42)])).map (·.pc), (run 0x4343 (regs [(3, 0x42)])).map (·.pc)) =
      (some 0x202, some 0x204) := by decide

theorem test_se_reg :
    ((run 0x5340 (regs [(3, 0x42), (4, 0x42)])).map (·.pc), (run 0x5350 (regs [(3, 0x42), (5, 1)])).map (·.pc)) =
      (some 0x204, some 0x202) := by decide

theorem test_sne_reg :
    ((run 0x9340 (regs [(3, 0x42), (4, 0x42)])).map (·.pc), (run 0x9350 (regs [(3, 0x42), (5, 1)])).map (·.pc)) =
      (some 0x202, some 0x204) := by decide

theorem test_skip_past_memory : (run 0x3000 { State.reset with pc := 0xFFE }).map (·.pc) = some 0x1002 := by decide

theorem test_jp_v0_passes_twelve_bits : (run 0xBFFF (regs [(0, 0xFF)])).map (·.pc) = some 0x10FE := by decide

theorem test_fetch_past_memory :
    (next? (step { State.reset with pc := 0x10FE })).map (·.fault) = some ⟨.fetchOutOfRange, 0x10FE, 0x10FE⟩ := by decide

theorem test_odd_pc :
    (run 0x6A55 { State.reset with pc := 0x201 }).map (fun t => (t.v[10], t.pc)) = some (0x55, 0x203) := by decide

theorem test_unrecognized :
    run 0x0123 State.reset = some { State.reset.withFetchWord 16 0x0123 with pc := 0x202 } := by decide

/-! ### Registers and arithmetic (section 2.2) -/

theorem test_ld_imm : (run 0x6F01 State.reset).map (fun t => t.v[15]) = some 1 := by decide

theorem test_add_imm_keeps_flag :
    (run 0x7101 (regs [(1, 0xFF), (15, 0x55)])).map (fun t => (t.v[1], t.v[15])) = some (0, 0x55) := by decide

theorem test_ld_reg :
    (run 0x8120 (regs [(1, 0x0C), (2, 0x0A), (15, 0x55)])).map (fun t => (t.v[1], t.v[2], t.v[15])) =
      some (0x0A, 0x0A, 0x55) := by decide

theorem test_or :
    (run 0x8121 (regs [(1, 0x0C), (2, 0x0A), (15, 0x55)])).map (fun t => (t.v[1], t.v[15])) = some (0x0E, 0x55) := by
  decide

theorem test_and :
    (run 0x8122 (regs [(1, 0x0C), (2, 0x0A), (15, 0x55)])).map (fun t => (t.v[1], t.v[15])) = some (0x08, 0x55) := by
  decide

theorem test_xor :
    (run 0x8123 (regs [(1, 0x0C), (2, 0x0A), (15, 0x55)])).map (fun t => (t.v[1], t.v[15])) = some (0x06, 0x55) := by
  decide

theorem test_add_carry :
    (run 0x8124 (regs [(1, 0xFF), (2, 1)])).map (fun t => (t.v[1], t.v[15])) = some (0, 1) ∧
    (run 0x8124 (regs [(1, 0xFF), (2, 0)])).map (fun t => (t.v[1], t.v[15])) = some (0xFF, 0) := by decide

theorem test_add_with_flag_operand :
    (run 0x8F14 (regs [(15, 0xF0), (1, 0x20)])).map (fun t => t.v[15]) = some 0x10 ∧
    (run 0x81F4 (regs [(1, 0xF0), (15, 0x20)])).map (fun t => (t.v[1], t.v[15])) = some (0x10, 1) := by decide

theorem test_sub_strict :
    (run 0x8125 (regs [(1, 1), (2, 2)])).map (fun t => (t.v[1], t.v[15])) = some (0xFF, 0) ∧
    (run 0x8125 (regs [(1, 7), (2, 7), (15, 1)])).map (fun t => (t.v[1], t.v[15])) = some (0, 0) := by decide

theorem test_sub_with_flag_operand :
    (run 0x8F15 (regs [(15, 9), (1, 3)])).map (fun t => t.v[15]) = some 0xFE ∧
    (run 0x81F5 (regs [(1, 9), (15, 3)])).map (fun t => (t.v[1], t.v[15])) = some (8, 1) := by decide

theorem test_shr :
    (run 0x8126 (regs [(1, 5), (2, 0xFF)])).map (fun t => (t.v[1], t.v[15], t.v[2])) = some (2, 1, 0xFF) ∧
    (run 0x8F06 (regs [(15, 0xFF)])).map (fun t => t.v[15]) = some 0 := by decide

theorem test_subn_strict :
    (run 0x8127 (regs [(1, 3), (2, 5)])).map (fun t => (t.v[1], t.v[15])) = some (2, 1) ∧
    (run 0x8127 (regs [(1, 7), (2, 7), (15, 1)])).map (fun t => (t.v[1], t.v[15])) = some (0, 0) := by decide

theorem test_subn_with_flag_operand :
    (run 0x8F17 (regs [(15, 3), (1, 9)])).map (fun t => t.v[15]) = some 8 ∧
    (run 0x81F7 (regs [(1, 3), (15, 9)])).map (fun t => (t.v[1], t.v[15])) = some (0xFE, 1) := by decide

theorem test_shl :
    (run 0x812E (regs [(1, 0x81), (2, 0xFF)])).map (fun t => (t.v[1], t.v[15], t.v[2])) = some (2, 1, 0xFF) ∧
    (run 0x8F0E (regs [(15, 0x80)])).map (fun t => t.v[15]) = some 2 := by decide

/-- With a mask of 0 the result is 0 for every byte drawn. -/
theorem test_rnd_mask_zero : (run 0xC100 (regs [(1, 0xFF)])).map (fun t => (t.v[1], t.pc)) = some (0, 0x202) := by
  have h (b : Byte) : b &&& 0 = 0 := by simp
  show some ((Config.rnd 0 &&& (0 : Byte)), (0x202 : Word)) = _
  rw [h]

/-! ### Index register and memory (section 2.3) -/

theorem test_ld_i : (run 0xAFFF State.reset).map (·.i) = some 0xFFF := by decide

theorem test_add_i :
    (run 0xF11E { regs [(1, 1), (15, 7)] with i := 0xFFF }).map (fun t => (t.i, t.v[15])) = some (0x1000, 7) ∧
    (run 0xF11E { regs [(1, 2)] with i := 0xFFFF }).map (·.i) = some 1 := by decide

theorem test_ld_f : ((run 0xF129 (regs [(1, 0x0F)])).map (·.i), (run 0xF129 (regs [(1, 0xFF)])).map (·.i)) =
    (some 0x09B, some 0x54B) := by decide

theorem test_bcd :
    (run 0xF133 { regs [(1, 0xD1)] with i := 0x300 }).map (fun t => (bytes t.mem 0x2FF 5, t.i)) =
      some ([0, 2, 0, 9, 0], 0x300) := by decide

theorem test_bcd_past_memory :
    (run 0xF133 { regs [(1, 0x7B)] with i := 0xFFE }).map (fun t => (t.fault, bytes t.mem 0xFFE 2)) =
      some (⟨.dataOutOfRange, 0x200, 0xFFE⟩, [0, 0]) := by decide

theorem test_store_regs :
    (run 0xF355 { rising with i := 0x400 }).map (fun t => (bytes t.mem 0x400 5, t.i)) =
      some ([0x10, 0x11, 0x12, 0x13, 0], 0x400) := by decide

theorem test_store_regs_at_the_end :
    (run 0xFF55 { rising with i := 0xFF0 }).map (fun t => (t.mem.read 0xFF0, t.mem.read 0xFFF)) = some (0x10, 0x1F) ∧
    (run 0xFF55 { rising with i := 0xFF1 }).map (fun t => (t.fault, t.mem.read 0xFF1)) =
      some (⟨.dataOutOfRange, 0x200, 0xFF1⟩, 0) := by decide

theorem test_load_regs :
    (run 0xF365 { sprite [0xA0, 0xA1, 0xA2, 0xA3, 0xA4] (regs [(4, 0x77)]) with pc := 0x200 }).map
      (fun t => (t.v.toList.take 5, t.i)) = some ([0xA0, 0xA1, 0xA2, 0xA3, 0x77], 0x300) := by decide

/-- Of the default font (10_state.md R24). -/
theorem test_load_regs_font :
    (run 0xF465 { State.reset with i := 0x050 }).map (fun t => t.v.toList.take 5) =
      some [0xF0, 0x90, 0x90, 0x90, 0xF0] := by decide

/-! ### Display (section 2.4) -/

theorem test_cls :
    (run 0x00E0 { regs [(15, 1)] with display := Vector.replicate 32 1, drawFlag := false }).map
      (fun t => (t.display, t.drawFlag, t.v[15])) = some (Vector.replicate 32 0, true, 1) := by decide

theorem test_drw_wraps_columns :
    (run 0xD121 { sprite [0xFF] (regs [(1, 0x3F), (2, 0x1F), (15, 0x33)]) with drawFlag := false }).map
      (fun t => (t.display[31], t.v[15], t.drawFlag)) = some (0xFE00000000000001, 0, true) := by decide

theorem test_drw_collides :
    (run 0xD121 { sprite [0xF0] (regs [(1, 8), (2, 4)]) with
        display := State.reset.display.set 4 0x0010000000000000 }).map
      (fun t => (t.display[4], t.v[15])) = some (0x00E0000000000000, 1) := by decide

/-! ### Keys and timers (section 2.5) -/

theorem test_skp :
    (run 0xE49E { regs [(4, 10)] with keys := State.reset.keys.set 10 true }).map (·.pc) = some 0x204 ∧
    (run 0xE49E { regs [(4, 0x10)] with keys := State.reset.keys.set 0 true }).map (fun t => (t.fault, t.pc)) =
      some (⟨.keyIndexOutOfRange, 0x200, 0x10⟩, 0x200) := by decide

theorem test_sknp :
    (run 0xE4A1 { regs [(4, 10)] with keys := State.reset.keys.set 10 true }).map (·.pc) = some 0x202 ∧
    (run 0xE4A1 (regs [(4, 10)])).map (·.pc) = some 0x204 := by decide

theorem test_key_wait :
    run 0xF10A (regs [(1, 0x99)]) = some ((regs [(1, 0x99)]).withFetchWord 16 0xF10A) ∧
    (run 0xF10A { regs [(1, 0x99)] with keys := (State.reset.keys.set 9 true).set 7 true }).map
      (fun t => (t.v[1], t.pc)) = some (7, 0x202) := by decide

theorem test_ld_vx_dt :
    (run 0xF507 { State.reset with dt := 0x3C, st := 5 }).map (fun t => (t.v[5], t.dt, t.st)) = some (0x3C, 0x3C, 5) := by
  decide

theorem test_ld_dt_vx : (run 0xF515 (regs [(5, 0x3C)])).map (fun t => (t.dt, t.st)) = some (0x3C, 0) := by decide

theorem test_ld_st_vx : (run 0xF518 (regs [(5, 0x3C)])).map (fun t => (t.dt, t.st)) = some (0, 0x3C) := by decide

theorem test_tick :
    (tick { State.reset with dt := 2, st := 1 }).dt = 1 ∧ (tick { State.reset with dt := 2, st := 1 }).st = 0 ∧
    tick State.reset = State.reset := by decide

/-! ### Witnesses: states and operands that meet each statement's hypotheses -/

/-- A state whose latch holds a fault (program P6 of section 3). -/
def latched : State := { State.reset with pc := 0x202, fault := ⟨.stackUnderflow, 0x202, 0⟩ }

/-- The state on the last address a fetch succeeds at, with a word there. -/
def lastFetch : State := { State.reset with pc := 0xFFE }.withFetchWord 16 0x6A37

theorem witness_DecodingIsTotalAndUnambiguous :
    (∃ r ∈ opcodeTable, (0x8AB6#16) &&& r.mask = r.pattern) ∧ ∀ r ∈ opcodeTable, (0xFFFF#16) &&& r.mask ≠ r.pattern := by
  decide

/-- Each row's own match word meets that row's hypothesis; 0xFFFF meets the default row's. -/
theorem witness_OpcodeMapRowsDecode :
    (∀ r ∈ opcodeTable, r.pattern &&& r.mask = r.pattern) ∧ ∀ r ∈ opcodeTable, (0xFFFF#16) &&& r.mask ≠ r.pattern := by
  decide

theorem witness_DecodeReadsBackEncode :
    (Instr.drw 15 0 15).wellFormed = true ∧ (Instr.unrecognized 0xFFFF).wellFormed = true := by decide

theorem witness_StepRunsTheDecodedInstruction :
    lastFetch.unfaulted ∧ lastFetch.pc.toNat ≤ 0xFFE ∧
    decode [lastFetch.mem.read lastFetch.pc.toNat, lastFetch.mem.read (lastFetch.pc.toNat + 1)] =
      .ok (.ldImm 10 0x37, []) := by decide

theorem witness_FetchBeyondMemoryFaults :
    (lastFetch.unfaulted ∧ lastFetch.pc.toNat ≤ 0xFFE) ∧
    ({ State.reset with pc := 0xFFF }.unfaulted ∧ 0xFFE < { State.reset with pc := 0xFFF }.pc.toNat) := by decide

theorem witness_FaultDisablesStepAlone :
    ¬ latched.unfaulted ∧ Event.tick ≠ .step ∧ Event.tick ≠ .reset ∧ Event.reset ≠ .step := by decide

theorem witness_LatchedFaultIsStickyOverRuns :
    ¬ latched.unfaulted ∧ Event.reset ∉ [Event.tick, .setKey 3 true, .loadProgram [0x12, 0x00], .drawAck] ∧
    (runEvents [.tick, .setKey 3 true, .loadProgram [0x12, 0x00], .drawAck] latched).isSome = true := by decide

/-- Both sides of every bound of the table: with the fault, and just short of it. -/
theorem witness_FaultsAreThoseOfTheTable :
    State.reset.unfaulted ∧ 0xFFE < { State.reset with pc := 0xFFF }.pc.toNat ∧
    ([(.drw 0 0 2, { State.reset with i := 0xFFE }), (.drw 0 0 2, { State.reset with i := 0xFFF }),
      (.ldBVx 0, { State.reset with i := 0xFFD }), (.ldBVx 0, { State.reset with i := 0xFFE }),
      (.storeRegs 15, { State.reset with i := 0xFF0 }), (.loadRegs 15, { State.reset with i := 0xFF1 }),
      (.call 0, { State.reset with sp := 15 }), (.call 0, { State.reset with sp := 16 }),
      (.ret, { State.reset with sp := 1 }), (.ret, State.reset),
      (.skp 1, regs [(1, 15)]), (.sknp 1, regs [(1, 16)])] : List (Instr × State)).all
      (fun p => (next? (exec p.1 p.2)).isSome) = true := by decide

/-- The footprints that end at 4095 and at 4096, for each of the four instructions, and no footprint. -/
theorem witness_DataBeyondMemoryFaultsBeforeAnyEffect :
    (1 ≤ (15 : Fin 16).val ∧ 4095 = { State.reset with i := 0xFF1 }.i.toNat + (15 : Fin 16).val - 1 ∧
      4096 = { State.reset with i := 0xFF2 }.i.toNat + (15 : Fin 16).val - 1) ∧
    (4095 = { State.reset with i := 0xFFD }.i.toNat + 2 ∧ 4096 = { State.reset with i := 0xFFE }.i.toNat + 2) ∧
    (4095 = { State.reset with i := 0xFF0 }.i.toNat + (15 : Reg).val ∧
      4096 = { State.reset with i := 0xFF1 }.i.toNat + (15 : Reg).val) ∧
    Instr.drw 1 2 0 = .drw 1 2 0 := by decide

theorem witness_EveryEnabledStepCompletes :
    State.reset.unfaulted ∧ (fetchWord State.reset).map decodeWord = some (.unrecognized 0x0000) := by decide

theorem witness_ReturnPopsAndAddsTwo :
    State.reset.sp.val = 0 ∧ { State.reset with sp := 1 }.sp.val = (0 : Fin 16).val + 1 ∧
    { State.reset with sp := 16 }.sp.val = (15 : Fin 16).val + 1 := by decide

theorem witness_CallPushesItsOwnAddress :
    { State.reset with sp := 16 }.sp.val = 16 ∧ { State.reset with sp := 15 }.sp.val = (15 : Fin 16).val ∧
    State.reset.sp.val = (0 : Fin 16).val ∧ (1 : Fin 16) ≠ 0 := by decide

theorem witness_ReturnUndoesCall :
    State.reset.sp.val = (0 : Fin 16).val ∧ { State.reset with sp := 15 }.sp.val = (15 : Fin 16).val := by decide

theorem witness_PcChangesAsTheTableSays :
    State.reset.unfaulted ∧ (next? (exec .ret State.reset)).map (fun t => decide t.unfaulted) = some false ∧
    (next? (exec .ret { State.reset with sp := 16 })).map (fun t => decide t.unfaulted) = some true ∧
    (next? (exec (.ldVxK 1) State.reset)).map (fun t => decide t.unfaulted) = some true := by decide

theorem witness_SubtractSetsStrictlyGreater :
    (1 : Byte) = (if (regs [(1, 3), (15, 9)]).v[(1 : Fin 16)].toNat < (regs [(1, 3), (15, 9)]).v[(15 : Fin 16)].toNat
      then 1 else 0) ∧ (1 : Reg) ≠ 15 := by decide

theorem witness_ReverseSubtractSetsStrictlyGreater :
    (0 : Byte) = (if (regs [(1, 9), (2, 9)]).v[(1 : Fin 16)].toNat < (regs [(1, 9), (2, 9)]).v[(2 : Fin 16)].toNat
      then 1 else 0) ∧ (1 : Reg) ≠ 15 ∧ (2 : Reg) ≠ 15 := by decide

/-- The registers other than a destination, and the destinations on both sides of `VF`, for the statements about one. -/
theorem witness_register_clauses :
    (0 : Reg) ≠ 15 ∧ (14 : Reg) ≠ 15 ∧ (0 : Reg) ≠ 14 ∧ (0x7F : Byte).getLsbD 7 = false ∧ 7 < 8 := by decide

/-- A draw, a reset, and a program that draws again. -/
theorem witness_NoLaterDrawHasTheNumberOfAnEarlierOne :
    fetchWord (State.reset.withFetchWord 16 0xC10F) = some 0xC10F ∧ decodeWord 0xC10F = .rnd 1 0x0F ∧
    (Event.step.apply (State.reset.withFetchWord 16 0xC10F)).isSome = true ∧
    ((Event.step.apply (State.reset.withFetchWord 16 0xC10F)).bind fun p =>
      runEvents [.reset, .loadProgram [0xC1, 0x0F], .step] p.1).map (·.draws) = some 2 := by decide

theorem witness_FlagIsWrittenByTheSixAlone :
    State.reset.unfaulted ∧ (14 : Reg) ≠ 15 ∧
    ([.addReg 14 15, .subReg 14 15, .shr 14 0, .subnReg 14 15, .shl 14 0, .drw 0 0 0, .loadRegs 14, .cls] :
      List Instr).all (fun i => (next? (exec i State.reset)).isSome) = true := by decide

theorem witness_BcdStoresThreeDigits :
    { State.reset with i := 0xFFD }.i.toNat + 2 ≤ 4095 ∧ 4095 < { State.reset with i := 0xFFE }.i.toNat + 2 := by decide

theorem witness_StoreBlockWritesVUpToX :
    { State.reset with i := 0xFF0 }.i.toNat + (15 : Reg).val ≤ 4095 ∧
    4095 < { State.reset with i := 0xFF1 }.i.toNat + (15 : Reg).val ∧ (15 : Fin 16) ≤ 15 := by decide

theorem witness_LoadBlockReadsVUpToX :
    { State.reset with i := 0xFFF }.i.toNat + (0 : Reg).val ≤ 4095 ∧
    4095 < { State.reset with i := 0xFFF }.i.toNat + (1 : Reg).val ∧ (1 : Fin 16) < 2 := by decide

/-- Program P5 of section 3 before its store. -/
theorem witness_NextFetchSeesTheStore :
    { State.reset with pc := 0x206, i := 0x208 }.unfaulted ∧ 1 ≤ (1 : Reg).val ∧
    { State.reset with pc := 0x206, i := 0x208 }.i = { State.reset with pc := 0x206, i := 0x208 }.pc + 2 ∧
    { State.reset with pc := 0x206, i := 0x208 }.i.toNat + (1 : Reg).val ≤ 4095 := by decide

theorem witness_CanonicalMemoriesThatReadAlikeAreEqual :
    Memory.wf [(0x050, 0x00), (0xFFF, 0x01)] ∧
    Memory.wf (((State.reset.mem.write 0xFFF 1).write 0x050 0).write 0x200 0) := by decide

/-- `Dxyn` with no rows wherever `I` is, with its last row at 4095, and one past it; `under` is given by its formula. -/
theorem witness_DrawTogglesTheSpritePixels :
    (0 : Fin 16).val = 0 ∧ { State.reset with i := 0xFFE }.i.toNat + (2 : Fin 16).val - 1 ≤ 4095 ∧
    (1 ≤ (3 : Fin 16).val ∧ 4095 < { State.reset with i := 0xFFE }.i.toNat + (3 : Fin 16).val - 1) ∧
    (∃ under : Fin 32 → Fin 64 → Prop, ∀ row col, under row col ↔ ∃ r b : Nat, r < (2 : Fin 16).val ∧ b < 8 ∧
      (State.reset.mem.read (State.reset.i.toNat + r)).getLsbD (7 - b) = true ∧
      row.val = (State.reset.v[(1 : Fin 16)].toNat + r) % 32 ∧
      col.val = (State.reset.v[(2 : Fin 16)].toNat + b) % 64) :=
  ⟨rfl, by decide, by decide, ⟨_, fun _ _ => Iff.rfl⟩⟩

/-- Section 2.4's byte 81 at column 5, and a row that wraps. -/
theorem witness_RowWordFormAgreesWithPerPixelForm :
    (0x0408000000000000 : BitVec 64) = (((0x81 : Byte).setWidth 64) <<< 56).rotateRight (5 % 64) ∧
    (0 : Fin 32).val = (31 + 1) % 32 := by decide

theorem witness_DrawingTwiceRestoresTheDisplay :
    (14 : Reg) ≠ 15 ∧ (0 : Reg) ≠ 15 ∧ { State.reset with i := 0xFF1 }.i.toNat + (15 : Fin 16).val - 1 ≤ 4095 := by
  decide

theorem witness_KeySkipsReadTheNamedKey :
    (regs [(1, 15)]).v[(1 : Fin 16)].toNat = (15 : Fin 16).val ∧ 15 < (regs [(1, 16)]).v[(1 : Fin 16)].toNat := by decide

theorem witness_KeyWaitTakesTheLeastKeyOrStalls :
    (∀ k : Fin 16, State.reset.keys[k] = false) ∧
    (State.reset.keys.set 15 true)[(15 : Fin 16)] = true ∧
    (∀ j : Fin 16, j < 15 → (State.reset.keys.set 15 true)[j] = false) ∧
    (State.reset.keys.set 0 true)[(0 : Fin 16)] = true := by decide

theorem witness_TimersRiseOnlyByTheirLoads :
    (Event.step.apply ((regs [(5, 0x3C)]).withFetchWord 16 0xF515)).map (fun p => decide (0 < p.1.dt.toNat)) = some true ∧
    (Event.step.apply ((regs [(5, 0x3C)]).withFetchWord 16 0xF518)).map (fun p => decide (0 < p.1.st.toNat)) =
      some true := by decide

theorem witness_CollaboratorsTouchOnlyTheirFields : (15 : Fin 16) ≠ 0 := by decide

theorem witness_LoadProgramCopiesOrRefusesWhole :
    3584 < (List.replicate 3585 (0xAA : Byte)).length ∧ (List.replicate 3584 (0xAA : Byte)).length ≤ 3584 ∧
    ([] : List Byte).length ≤ 3584 := by
  simp only [List.length_replicate, List.length_nil]
  omega

/-- For each item an instruction that changes it. -/
theorem witness_EachItemHasOnlyItsWriters :
    (next? (exec (.ldBVx 1) { regs [(1, 0xFF)] with i := 0x300 })).map (fun t => decide (t.mem ≠ [])) = some true ∧
    (next? (exec (.ldImm 1 5) State.reset)).map (fun t => decide (t.v ≠ State.reset.v)) = some true ∧
    (next? (exec (.ldI 5) State.reset)).map (fun t => decide (t.i ≠ 0)) = some true ∧
    (next? (exec (.ldVxK 1) { State.reset with keys := Vector.replicate 16 true })).map
      (fun t => decide (t.pc ≠ 0x200)) = some true ∧
    (next? (exec (.call 0) State.reset)).map (fun t => decide (t.sp ≠ 0 ∧ t.stack ≠ State.reset.stack)) = some true ∧
    (next? (exec (.ldDtVx 1) (regs [(1, 1)]))).map (fun t => decide (t.dt ≠ 0)) = some true ∧
    (next? (exec (.ldStVx 1) (regs [(1, 1)]))).map (fun t => decide (t.st ≠ 0)) = some true ∧
    (next? (exec .cls { State.reset with display := Vector.replicate 32 1, drawFlag := false })).map
      (fun t => decide (t.display ≠ Vector.replicate 32 1 ∧ t.drawFlag ≠ false)) = some true ∧
    (next? (exec .ret State.reset)).map (fun t => decide (t.fault ≠ State.reset.fault)) = some true := by decide

theorem witness_ProgramsCannotObserveDrawFlagOrSound :
    (next? (exec (.drw 1 2 5) { State.reset with i := 0x050 })).isSome = true := by decide

/-- `Fx07` meets the keys clause, `Fx0A` the delay clause, a clear of the display both. -/
theorem witness_KeysAndDelayReachOnlyTheirReaders :
    ([.ldVxDt 1, .ldVxK 1, .cls] : List Instr).all (fun i => (next? (exec i State.reset)).isSome) = true ∧
    (∀ x, Instr.ldVxDt 1 ≠ .skp x ∧ Instr.ldVxDt 1 ≠ .sknp x ∧ Instr.ldVxDt 1 ≠ .ldVxK x) ∧
    (∀ x, Instr.cls ≠ .skp x ∧ Instr.cls ≠ .sknp x ∧ Instr.cls ≠ .ldVxK x) ∧
    (∀ x, Instr.ldVxK 1 ≠ .ldVxDt x) ∧ ∀ x, Instr.cls ≠ .ldVxDt x := by
  decide

theorem witness_TerminalStateStepsToItself : (State.reset.withFetchWord 16 0x1200).terminal :=
  ⟨by decide, 0x200, by decide, by decide⟩

theorem witness_EveryStepKeepsTheInvariant :
    (State.reset.withFetchWord 16 0x2300).Inv ∧ (run 0x2300 State.reset).map (fun t => (t.pc, t.sp)) = some (0x300, 1) ∧
    { State.reset with pc := 0x10FE }.Inv ∧ (next? (step { State.reset with pc := 0x10FE })).isSome = true := by decide

/-- Every kind of event from states of the invariant, a step and a latched state among them. -/
theorem witness_EveryEventKeepsTheInvariant :
    latched.Inv ∧ State.reset.Inv ∧ (Event.step.apply State.reset).isSome = true ∧
    ([.tick, .reset, .loadProgram [0x12, 0x00], .setKey 15 true, .readDisplay, .drawAck, .readST] : List Event).all
      (fun e => (e.apply latched).isSome) = true := by decide

/-- Program P4 of section 3, with its external events. -/
theorem witness_ReachableStatesStayInRange :
    (runEvents [.loadProgram [0xF1, 0x0A, 0xF1, 0x15, 0xF2, 0x07, 0x12, 0x06], .step, .setKey 7 true, .setKey 9 true, .step,
      .step, .tick, .step] State.reset).map (fun t => (t.v[1], t.v[2], t.dt, t.pc)) = some (7, 6, 6, 0x206) := by decide

end Sys2Proof.Tests
end

section
/-! PROOFS. The range checks of 20_memory.md: the fetch at `PC` (R34) and the data access at `I` (R35). -/

namespace Sys2Proof.Machine

/-! ### The fetch (R34) -/

/-- The other side of `fetchWord_eq_some`. -/
theorem fetchWord_eq_none (s : State) : fetchWord s = none ↔ 0xFFE < s.pc.toNat := by
  simp [fetchWord]

theorem step_of_fetchWord_eq_some {s : State} {w : Word} (hs : s.unfaulted) (hw : fetchWord s = some w) :
    step s = exec (decodeWord w) s := by
  rw [step, if_pos hs, hw]

theorem step_of_fetchWord_eq_none {s : State} (hs : s.unfaulted) (hw : fetchWord s = none) :
    step s = .next { s with fault := ⟨.fetchOutOfRange, s.pc, s.pc⟩ } := by
  rw [step, if_pos hs, hw]
  exact raiseFault_eq _ _ _

/-- Settles O10: whether the step faults is whether `fetchWord` finds a word. -/
theorem fetchBeyondMemoryFaults : Obligations.FetchBeyondMemoryFaults := by
  intro s hs
  constructor
  · intro hpc
    exact step_of_fetchWord_eq_none hs ((fetchWord_eq_none s).mpr hpc)
  · intro hpc
    exact step_of_fetchWord_eq_some hs ((fetchWord_eq_some s _).mpr ⟨hpc, rfl⟩)

/-! ### The data access (R35) -/

/-- R35 for one checked access that touches `count` bytes, the highest at `last`. An access of no bytes touches none, and
its `last` is 0 by convention. -/
theorem checkData_faults_or_completes {count last : Nat} {s after : State}
    (hlast : count ≠ 0 ∧ last = s.i.toNat + (count - 1) ∨ count = 0 ∧ last = 0)
    (hfault : after.fault = s.fault) (hpc : after.pc = s.pc + 2) :
    (4095 < last → checkData count s after = .next { s with fault := ⟨.dataOutOfRange, s.pc, s.i⟩ }) ∧
    (last ≤ 4095 → ∃ t, checkData count s after = .next t ∧ t.fault = s.fault ∧ t.pc = s.pc + 2) := by
  constructor
  · intro hbeyond
    exact checkData_of_not_fits count s after (by omega) (by omega)
  · intro hwithin
    exact ⟨after, checkData_of_fits count s after (by omega), hfault, hpc⟩

/-- Settles O14: each of the four instructions is one checked access, of `n`, 3, `x + 1` and `x + 1` bytes, whose state
after the access keeps the latch and moves `PC` on. -/
theorem dataBeyondMemoryFaultsBeforeAnyEffect : Obligations.DataBeyondMemoryFaultsBeforeAnyEffect := by
  rintro s i last ((⟨x, y, n, rfl, hn, rfl⟩ | ⟨x, rfl, rfl⟩ | ⟨x, rfl | rfl, rfl⟩) | ⟨x, y, rfl, rfl⟩)
  case inl.inl => -- `Dxyn` with at least one row
    exact checkData_faults_or_completes (count := n.val) (.inl (by omega)) rfl rfl
  case inl.inr.inl => -- `Fx33`
    exact checkData_faults_or_completes (count := 3) (.inl (by omega)) rfl rfl
  case inl.inr.inr.inl => -- `Fx55`
    exact checkData_faults_or_completes (count := x.val + 1) (.inl (by omega)) rfl rfl
  case inl.inr.inr.inr => -- `Fx65`
    exact checkData_faults_or_completes (count := x.val + 1) (.inl (by omega)) rfl rfl
  case inr => -- `Dxyn` with no rows
    exact checkData_faults_or_completes (count := 0) (.inr ⟨rfl, rfl⟩) rfl rfl

end Sys2Proof.Machine
end

section
/-! PROOFS. The opcode map of 30_encoding.md: the fields of a word (R46), and what its rows decode to (R49, R50). -/

namespace Sys2Proof

/-! ### At most one row accepts a word (R49) -/

/-- Two different rows do not accept one word, in the order of the table. -/
theorem opcodeTable_accepts_at_most_once (w : Word) :
    opcodeTable.Pairwise fun r r' => r.accepts w = true → ¬ r'.accepts w = true := by
  refine opcodeTable_disjoint.imp ?_
  intro r r' hdiffer hr
  exact Bool.eq_false_iff.mp (accepts_disjoint r r' w hdiffer hr)

/-- A list no two places of which satisfy `p` keeps at most one element under the filter by `p`. -/
theorem length_filter_le_one_of_pairwise {α : Type} {p : α → Bool} {l : List α}
    (h : l.Pairwise fun a b => p a = true → ¬ p b = true) : (l.filter p).length ≤ 1 := by
  have hnone : (l.filter p).Pairwise fun _ _ => False := List.pairwise_filter.mpr h
  match l.filter p, hnone with
  | [], _ => exact Nat.zero_le 1
  | [_], _ => exact Nat.le_refl 1
  | a :: b :: _, hnone => exact (List.rel_of_pairwise_cons hnone List.mem_cons_self).elim

theorem accepts_iff (r : OpcodeRow) (w : Word) : r.accepts w = true ↔ w &&& r.mask = r.pattern := beq_iff_eq

theorem recognized_eq_false_iff (w : Word) :
    recognized w = false ↔ ∀ r ∈ opcodeTable, w &&& r.mask ≠ r.pattern := by
  simp only [recognized, List.any_eq_false, accepts_iff, ne_eq]

/-- Settles O4: the rows exclude one another, so the row that accepts a word is the one the decoder finds. -/
theorem decodingIsTotalAndUnambiguous : Obligations.DecodingIsTotalAndUnambiguous := by
  intro w
  refine ⟨length_filter_le_one_of_pairwise (opcodeTable_accepts_at_most_once w), ?_, ?_⟩
  · intro r hr hw
    exact decodeWord_of_accepts r hr w ((accepts_iff r w).mpr hw)
  · intro hnone
    exact decodeWord_of_not_recognized w ((recognized_eq_false_iff w).mpr hnone)

/-! ### The rows written out (R50) -/

/-- Settles O5: the statement is O4's decoding clause at each row of the table in turn, then its default clause. -/
theorem opcodeMapRowsDecode : Obligations.OpcodeMapRowsDecode := by
  intro w
  obtain ⟨-, hrows, hdefault⟩ := decodingIsTotalAndUnambiguous w
  have heach : opcodeTable.Forall fun r => w &&& r.mask = r.pattern → decodeWord w = r.build w :=
    List.forall_iff_forall_mem.mpr hrows
  have hall := And.intro heach hdefault
  simp only [opcodeTable, opcodeRows0to7, opcodeRows8, opcodeRows9toE, opcodeRowsF, List.cons_append, List.nil_append,
    List.Forall, and_assoc] at hall
  exact hall

/-! ### The fields of a word (R46) -/

section Digits

variable (op x y n : BitVec 4)

@[simp] theorem fieldN_digits : fieldN (op ++ x ++ y ++ n) = n.toFin :=
  congrArg BitVec.toFin BitVec.extractLsb'_append_eq_right

@[simp] theorem fieldY_digits : fieldY (op ++ x ++ y ++ n) = y.toFin := by
  refine congrArg BitVec.toFin ?_
  calc (op ++ x ++ y ++ n).extractLsb' 4 4
      _ = (op ++ x ++ y).extractLsb' 0 4 := BitVec.extractLsb'_append_eq_of_le (by decide)
      _ = y := BitVec.extractLsb'_append_eq_right

@[simp] theorem fieldX_digits : fieldX (op ++ x ++ y ++ n) = x.toFin := by
  refine congrArg BitVec.toFin ?_
  calc (op ++ x ++ y ++ n).extractLsb' 8 4
      _ = (op ++ x ++ y).extractLsb' 4 4 := BitVec.extractLsb'_append_eq_of_le (by decide)
      _ = (op ++ x).extractLsb' 0 4 := BitVec.extractLsb'_append_eq_of_le (by decide)
      _ = x := BitVec.extractLsb'_append_eq_right

@[simp] theorem fieldKK_digits : fieldKK (op ++ x ++ y ++ n) = y ++ n := by
  have hsplit : op ++ x ++ y ++ n = (op ++ x) ++ (y ++ n) := BitVec.append_assoc
  rw [hsplit]
  exact BitVec.extractLsb'_append_eq_right

@[simp] theorem fieldNNN_digits : fieldNNN (op ++ x ++ y ++ n) = x ++ y ++ n := by
  have hsplit : op ++ x ++ y ++ n = op ++ (x ++ y ++ n) :=
    calc op ++ x ++ y ++ n = op ++ (x ++ y) ++ n := congrArg (· ++ n) BitVec.append_assoc
      _ = op ++ (x ++ y ++ n) := BitVec.append_assoc
  rw [hsplit]
  exact BitVec.extractLsb'_append_eq_right

end Digits

/-- Settles O3: a field that is one digit is its low end after the digits below it are dropped; `kk` and `nnn` are the low
part of the word split before `y` and before `x`. -/
theorem fieldsAreTheWordsDigits : Obligations.FieldsAreTheWordsDigits := by
  intro op x y n
  exact ⟨fieldX_digits op x y n, fieldY_digits op x y n, fieldN_digits op x y n, fieldKK_digits op x y n,
    fieldNNN_digits op x y n⟩

end Sys2Proof
end

section
/-! PROOFS. Control transfer and the unrecognized word (40_control_flow.md). -/

namespace Sys2Proof.Machine

/-! ### Zero extension (30_encoding.md R48) -/

theorem zext12_toNat (nnn : BitVec 12) : (zext12 nnn).toNat = nnn.toNat :=
  BitVec.toNat_setWidth_of_le (by decide)

theorem zext8_toNat (b : Byte) : (zext8 b).toNat = b.toNat :=
  BitVec.toNat_setWidth_of_le (by decide)

/-! ### The jumps (R62, R68) -/

/-- The sum of R68 reaches at most 0x10FE, so it does not wrap. -/
theorem zext12_add_zext8_toNat (nnn : BitVec 12) (b : Byte) : (zext12 nnn + zext8 b).toNat = nnn.toNat + b.toNat := by
  have hnnn : nnn.toNat < 4096 := nnn.isLt
  have hb : b.toNat < 256 := b.isLt
  rw [BitVec.toNat_add_of_lt (by rw [zext12_toNat, zext8_toNat]; omega), zext12_toNat, zext8_toNat]

/-- Settles O17: the next state is `jumpTo` the operand, whose zero extension keeps its number. -/
theorem jumpSetsPc : Obligations.JumpSetsPc := by
  intro nnn s
  exact ⟨s.jumpTo (zext12 nnn), rfl, zext12_toNat nnn, rfl⟩

/-- Settles O21: both operands are small enough for the 16-bit sum to be the sum of the numbers. -/
theorem offsetJumpAddsV0 : Obligations.OffsetJumpAddsV0 := by
  intro nnn s
  exact ⟨s.jumpTo (zext12 nnn + zext8 (s.getV 0)), rfl, zext12_add_zext8_toNat nnn (s.getV 0), rfl⟩

/-! ### The call and the return (R61, R63) -/

section Push

/-! The slot `j` that a push from `SP = j` writes, and the others. -/

variable (s : State) (room : s.sp.val < 16) (j : Fin 16) (hj : s.sp.val = j.val)
include hj

theorem pushPc_stack_at_sp : (s.pushPc room).stack[j] = s.pc := by
  simp [hj]

theorem pushPc_stack_of_ne (k : Fin 16) (hk : k ≠ j) : (s.pushPc room).stack[k] = s.stack[k] := by
  have hne : s.sp.val ≠ k.val := fun hsp => hk (Fin.ext (hsp.symm.trans hj))
  rw [pushPc_stack, Fin.getElem_fin, Vector.getElem_set_ne _ _ hne, Fin.getElem_fin]

end Push

/-- Settles O18: by whether a slot is free. `j` is the slot that the push writes. -/
theorem callPushesItsOwnAddress : Obligations.CallPushesItsOwnAddress := by
  intro nnn s
  constructor
  · intro hfull
    exact execCall_of_full nnn s hfull
  · intro j hj
    have room : s.sp.val < 16 := by omega
    have hsp : (s.pushPc room).sp.val = j.val + 1 := by rw [pushPc_sp_val, hj]
    exact ⟨(s.pushPc room).jumpTo (zext12 nnn), execCall_of_room nnn s room, pushPc_stack_at_sp s room j hj,
      pushPc_stack_of_ne s room j hj, hsp, zext12_toNat nnn, rfl⟩

/-- Settles O16: by whether a slot is live. `j` is the slot that the pop reads, and the pop leaves it as it was. -/
theorem returnPopsAndAddsTwo : Obligations.ReturnPopsAndAddsTwo := by
  intro s
  constructor
  · intro hempty
    exact execRet_of_empty s hempty
  · intro j hj
    have live : 0 < s.sp.val := by omega
    have hslot : s.sp.val - 1 = j.val := by omega
    refine ⟨(s.popPc live).advance, execRet_of_live s live, hslot, ?_, rfl⟩
    simp only [advance_pc, popPc_pc, hslot, Fin.getElem_fin]

/-! ### The skips (R64 to R67, R69) -/

/-- A skip on the test of a condition. -/
theorem skipIf_eq_of_iff {c : Bool} {p : Prop} [Decidable p] (s : State) (h : c = true ↔ p) :
    s.skipIf c = { s with pc := if p then s.pc + 4 else s.pc + 2 } := by
  rw [skipIf_eq]
  simp only [h]

/-- Settles O20: each of the four is a skip on its comparison, `==` or `!=`. -/
theorem skipsFollowTheirComparison : Obligations.SkipsFollowTheirComparison := by
  intro x y kk s
  exact ⟨congrArg Host.Outcome.next (skipIf_eq_of_iff s beq_iff_eq),
    congrArg Host.Outcome.next (skipIf_eq_of_iff s bne_iff_ne),
    congrArg Host.Outcome.next (skipIf_eq_of_iff s beq_iff_eq),
    congrArg Host.Outcome.next (skipIf_eq_of_iff s bne_iff_ne)⟩

/-! ### The unrecognized word (R71) -/

/-- Settles O22: the meaning of every such word is `advance`, which moves `PC` alone. -/
theorem unrecognizedWordIsANoOp : Obligations.UnrecognizedWordIsANoOp := by
  intro w s
  rfl

end Sys2Proof.Machine
end

section
/-! PROOFS. Register loads, arithmetic, logic and shifts (41_alu.md). -/

namespace Sys2Proof.Machine

/-! ### The rows that write one register (R76 to R81) -/

/-- Writing `V[x]` and moving on completes, with any fact about the byte written now a fact about `V[x]`, and with nothing
else changed but `PC`. -/
theorem setV_advance_writes_one (x : Reg) (b : Byte) (s : State) (P : Byte → Prop) (hb : P b) :
    ∃ t, (.next (s.setV x b).advance : Result) = .next t ∧ P t.v[x] ∧ (∀ r : Fin 16, r ≠ x → t.v[r] = s.v[r]) ∧
      t = { s with v := t.v, pc := s.pc + 2 } := by
  refine ⟨(s.setV x b).advance, rfl, ?_, ?_, rfl⟩
  · rwa [advance_v, setV_v, set_getElem_same]
  · intro r hr
    exact set_getElem_of_ne s.v x r b hr

/-- Settles O24: both loads write one register. -/
theorem loadsWriteTheirRegister : Obligations.LoadsWriteTheirRegister := by
  intro x y kk s
  exact ⟨setV_advance_writes_one x kk s (· = kk) rfl, setV_advance_writes_one x s.v[y] s (· = s.v[y]) rfl⟩

/-- Settles O25: the one register written gets the byte sum, which is the sum of the numbers modulo 256. -/
theorem addImmediateWrapsWithoutFlag : Obligations.AddImmediateWrapsWithoutFlag := by
  intro x kk s
  exact setV_advance_writes_one x (s.v[x] + kk) s (fun b => b.toNat = (s.v[x].toNat + kk.toNat) % 256)
    (BitVec.toNat_add s.v[x] kk)

/-- Settles O26: the one register written gets the OR, AND or XOR, each of which works bit by bit. -/
theorem logicWorksBitwiseWithoutFlag : Obligations.LogicWorksBitwiseWithoutFlag := by
  intro x y s
  refine ⟨?_, ?_, ?_⟩
  · exact setV_advance_writes_one x (s.v[x] ||| s.v[y]) s
      (fun v => ∀ b < 8, v.getLsbD b = (s.v[x].getLsbD b || s.v[y].getLsbD b)) fun _ _ => BitVec.getLsbD_or
  · exact setV_advance_writes_one x (s.v[x] &&& s.v[y]) s
      (fun v => ∀ b < 8, v.getLsbD b = (s.v[x].getLsbD b && s.v[y].getLsbD b)) fun _ _ => BitVec.getLsbD_and
  · exact setV_advance_writes_one x (s.v[x] ^^^ s.v[y]) s
      (fun v => ∀ b < 8, v.getLsbD b = (s.v[x].getLsbD b ^^ s.v[y].getLsbD b)) fun _ _ => BitVec.getLsbD_xor

/-! ### The rows that write the flag first (R82 to R86) -/

/-- The common form of the five: `VF <- f`, then `V[x] <-` a result that may read the registers as the flag left them. -/
def State.flagThen (f : Byte) (x : Reg) (result : State → Byte) (s : State) : State :=
  let flagged := s.setV flagReg f
  (flagged.setV x (result flagged)).advance

/-- R82: the result is of the old values, whatever the flag left. -/
theorem execAddReg_eq (x y : Reg) (s : State) :
    execAddReg x y s = .next (s.flagThen (carryFlag s.v[x] s.v[y]) x fun _ => s.v[x] + s.v[y]) := rfl

/-- R83. -/
theorem execSubReg_eq (x y : Reg) (s : State) :
    execSubReg x y s = .next (s.flagThen (greaterFlag s.v[x] s.v[y]) x fun u => u.v[x] - u.v[y]) := rfl

/-- R84. -/
theorem execShr_eq (x y : Reg) (s : State) :
    execShr x y s = .next (s.flagThen (lowBitFlag s.v[x]) x fun u => u.v[x] >>> 1) := rfl

/-- R85. -/
theorem execSubnReg_eq (x y : Reg) (s : State) :
    execSubnReg x y s = .next (s.flagThen (greaterFlag s.v[y] s.v[x]) x fun u => u.v[y] - u.v[x]) := rfl

/-- R86. -/
theorem execShl_eq (x y : Reg) (s : State) :
    execShl x y s = .next (s.flagThen (highBitFlag s.v[x]) x fun u => u.v[x] <<< 1) := rfl

section FlagThen

variable (s : State) (f : Byte) (x y : Reg)

theorem setV_flagReg_v_flag : (s.setV flagReg f).v[(15 : Fin 16)] = f :=
  set_getElem_same s.v flagReg f

theorem setV_flagReg_v_of_ne {r : Reg} (hr : r ≠ 15) : (s.setV flagReg f).v[r] = s.v[r] :=
  set_getElem_of_ne s.v flagReg r f hr

theorem flagThen_v_dest (result : State → Byte) : (s.flagThen f x result).v[x] = result (s.setV flagReg f) :=
  set_getElem_same (s.setV flagReg f).v x _

theorem flagThen_v_flag {x : Reg} (hx : x ≠ 15) (result : State → Byte) :
    (s.flagThen f x result).v[(15 : Fin 16)] = f :=
  (set_getElem_of_ne (s.setV flagReg f).v x 15 _ hx.symm).trans (setV_flagReg_v_flag s f)

theorem flagThen_v_of_ne (result : State → Byte) (r : Reg) (hx : r ≠ x) (hflag : r ≠ 15) :
    (s.flagThen f x result).v[r] = s.v[r] :=
  (set_getElem_of_ne (s.setV flagReg f).v x r _ hx).trans (setV_flagReg_v_of_ne s f hflag)

theorem flagThen_frame (result : State → Byte) :
    s.flagThen f x result = { s with v := (s.flagThen f x result).v, pc := s.pc + 2 } := rfl

/-- A result of one operand, `V[x]`, reads the flag where `x` is 15. -/
theorem flagThen_one_operand (op : Byte → Byte) {t : State} (ht : t = s.flagThen f x fun u => op u.v[x]) :
    (x ≠ 15 → t.v[x] = op s.v[x] ∧ t.v[(15 : Fin 16)] = f) ∧ (x = 15 → t.v[(15 : Fin 16)] = op f) := by
  subst ht
  refine ⟨?_, ?_⟩
  · intro hx
    exact ⟨by rw [flagThen_v_dest, setV_flagReg_v_of_ne s f hx], flagThen_v_flag s f hx _⟩
  · rintro rfl
    rw [flagThen_v_dest, setV_flagReg_v_flag]

/-- A result of two operands, `V[x]` and `V[y]`, reads the flag for each that is register 15. -/
theorem flagThen_two_operands (op : Byte → Byte → Byte) {t : State}
    (ht : t = s.flagThen f x fun u => op u.v[x] u.v[y]) :
    (x ≠ 15 → y ≠ 15 → t.v[x] = op s.v[x] s.v[y] ∧ t.v[(15 : Fin 16)] = f) ∧
    (x = 15 → y ≠ 15 → t.v[(15 : Fin 16)] = op f s.v[y]) ∧
    (x ≠ 15 → y = 15 → t.v[x] = op s.v[x] f ∧ t.v[(15 : Fin 16)] = f) ∧
    (x = 15 → y = 15 → t.v[(15 : Fin 16)] = op f f) := by
  subst ht
  refine ⟨?_, ?_, ?_, ?_⟩
  · intro hx hy
    refine ⟨?_, flagThen_v_flag s f hx _⟩
    rw [flagThen_v_dest, setV_flagReg_v_of_ne s f hx, setV_flagReg_v_of_ne s f hy]
  · rintro rfl hy
    rw [flagThen_v_dest, setV_flagReg_v_flag, setV_flagReg_v_of_ne s f hy]
  · rintro hx rfl
    refine ⟨?_, flagThen_v_flag s f hx _⟩
    rw [flagThen_v_dest, setV_flagReg_v_of_ne s f hx, setV_flagReg_v_flag]
  · rintro rfl rfl
    rw [flagThen_v_dest, setV_flagReg_v_flag]

end FlagThen

/-! ### The sum and the differences (R82, R83, R85) -/

theorem carryFlag_eq (a b : Byte) : carryFlag a b = if 255 < a.toNat + b.toNat then 1 else 0 := by
  simp [carryFlag, flagByte]

theorem greaterFlag_eq (a b : Byte) : greaterFlag a b = if b.toNat < a.toNat then 1 else 0 := by
  simp [greaterFlag, flagByte]

/-- Settles O27: the result is written last, so it stands in `V[x]` for every `x`, and the flag stands where `x` is not
15. -/
theorem addSetsTheCarry : Obligations.AddSetsTheCarry := by
  intro x y s
  refine ⟨_, execAddReg_eq x y s, ?_, ?_, flagThen_v_of_ne s _ x _, flagThen_frame s _ x _⟩
  · rw [flagThen_v_dest]
    exact BitVec.toNat_add s.v[x] s.v[y]
  · intro hx
    rw [flagThen_v_flag s _ hx, carryFlag_eq]

/-- Settles O28: the operand cases of a result written after the flag; where both operands are the
flag, the difference is 0. -/
theorem subtractSetsStrictlyGreater : Obligations.SubtractSetsStrictlyGreater := by
  intro x y s f hf
  rw [← greaterFlag_eq] at hf
  obtain ⟨hneither, hx, hy, hboth⟩ := flagThen_two_operands s f x y (fun a b => a - b) rfl
  refine ⟨_, hf ▸ execSubReg_eq x y s, hneither, hx, hy, ?_, flagThen_v_of_ne s f x _, flagThen_frame s f x _⟩
  intro hx15 hy15
  exact (hboth hx15 hy15).trans (BitVec.sub_self f)

/-- Settles O29: as O28, with the difference taken the other way. -/
theorem reverseSubtractSetsStrictlyGreater : Obligations.ReverseSubtractSetsStrictlyGreater := by
  intro x y s f hf
  rw [← greaterFlag_eq] at hf
  obtain ⟨hneither, hx, hy, hboth⟩ := flagThen_two_operands s f x y (fun a b => b - a) rfl
  refine ⟨_, hf ▸ execSubnReg_eq x y s, hneither, hx, hy, ?_, flagThen_v_of_ne s f x _, flagThen_frame s f x _⟩
  intro hx15 hy15
  exact (hboth hx15 hy15).trans (BitVec.sub_self f)

/-! ### The shifts (R84, R86) -/

theorem lowBitFlag_toNat (a : Byte) : (lowBitFlag a).toNat = a.toNat % 2 := by
  rw [lowBitFlag, BitVec.toNat_and]
  exact Nat.and_one_is_mod a.toNat

theorem highBitFlag_toNat (a : Byte) : (highBitFlag a).toNat = a.toNat / 128 := by
  have hshift : (a >>> 7).toNat = a.toNat / 128 := by
    rw [BitVec.toNat_ushiftRight, Nat.shiftRight_eq_div_pow]
  have ha : a.toNat < 256 := a.isLt
  calc (highBitFlag a).toNat = (a >>> 7).toNat % 2 := lowBitFlag_toNat (a >>> 7)
    _ = a.toNat / 128 := by omega

theorem ushiftRight_one_toNat (a : Byte) : (a >>> 1).toNat = a.toNat / 2 := by
  rw [BitVec.toNat_ushiftRight, Nat.shiftRight_eq_div_pow, pow_one]

theorem shiftLeft_one_toNat (a : Byte) : (a <<< 1).toNat = a.toNat * 2 % 256 := by
  rw [BitVec.toNat_shiftLeft, Nat.shiftLeft_eq, pow_one]

/-- What `8xy6` leaves in `VF` where `x` is 15. -/
theorem lowBitFlag_ushiftRight_one (a : Byte) : lowBitFlag a >>> 1 = 0 := by
  apply BitVec.eq_of_toNat_eq
  rw [ushiftRight_one_toNat, lowBitFlag_toNat]
  exact Nat.div_eq_of_lt (Nat.mod_lt _ (by decide))

/-- What `8xyE` leaves in `VF` where `x` is 15. -/
theorem highBitFlag_shiftLeft_one (a : Byte) : highBitFlag a <<< 1 = if 0x80 ≤ a.toNat then 2 else 0 := by
  have ha : a.toNat < 256 := a.isLt
  apply BitVec.eq_of_toNat_eq
  rw [shiftLeft_one_toNat, highBitFlag_toNat]
  split
  · show a.toNat / 128 * 2 % 256 = 2
    omega
  · show a.toNat / 128 * 2 % 256 = 0
    omega

/-- Settles O30: each shift is a result of one operand written after the bit that it shifts out, and with `x = 15` it
shifts that bit. -/
theorem shiftsMoveOneBitIntoTheFlag : Obligations.ShiftsMoveOneBitIntoTheFlag := by
  intro x y s
  constructor
  · obtain ⟨hother, hflag⟩ := flagThen_one_operand s (lowBitFlag s.v[x]) x (· >>> 1) rfl
    refine ⟨_, execShr_eq x y s, ?_, ?_, flagThen_v_of_ne s _ x _, flagThen_frame s _ x _⟩
    · intro hx
      obtain ⟨hresult, hbit⟩ := hother hx
      exact ⟨(congrArg BitVec.toNat hresult).trans (ushiftRight_one_toNat s.v[x]),
        (congrArg BitVec.toNat hbit).trans (lowBitFlag_toNat s.v[x])⟩
    · intro hx
      exact (hflag hx).trans (lowBitFlag_ushiftRight_one s.v[x])
  · obtain ⟨hother, hflag⟩ := flagThen_one_operand s (highBitFlag s.v[x]) x (· <<< 1) rfl
    refine ⟨_, execShl_eq x y s, ?_, ?_, flagThen_v_of_ne s _ x _, flagThen_frame s _ x _⟩
    · intro hx
      obtain ⟨hresult, hbit⟩ := hother hx
      exact ⟨(congrArg BitVec.toNat hresult).trans (shiftLeft_one_toNat s.v[x]),
        (congrArg BitVec.toNat hbit).trans (highBitFlag_toNat s.v[x])⟩
    · intro hx
      exact (hflag hx).trans (highBitFlag_shiftLeft_one s.v[x])

end Sys2Proof.Machine
end

section
/-! PROOFS. The index register and the data accesses at `I` (42_index_memory.md). -/

namespace Sys2Proof.Machine

/-! ### The instructions that set `I` (R95 to R97) -/

/-- The glyph address of R97 reaches at most 0x54B, so the word holds it whole. -/
theorem glyphAddress_toNat (b : Byte) :
    (BitVec.ofNat 16 (Config.fontBase + 5 * b.toNat)).toNat = 0x050 + 5 * b.toNat := by
  have hb : b.toNat < 256 := b.isLt
  exact Nat.mod_eq_of_lt (by rw [fontBase_eq]; omega)

theorem add_zext8_toNat (w : Word) (b : Byte) : (w + zext8 b).toNat = (w.toNat + b.toNat) % 65536 := by
  rw [BitVec.toNat_add, zext8_toNat]

/-- Settles O33: each of the three is `setI` and `advance`, with the number of the word that it sets. -/
theorem indexInstructionsSetI : Obligations.IndexInstructionsSetI := by
  intro x nnn s
  exact ⟨⟨(s.setI (zext12 nnn)).advance, rfl, zext12_toNat nnn, rfl⟩,
    ⟨(s.setI (s.i + zext8 (s.getV x))).advance, rfl, add_zext8_toNat s.i s.v[x], rfl⟩,
    ⟨(s.setI (.ofNat 16 (Config.fontBase + 5 * (s.getV x).toNat))).advance, rfl, glyphAddress_toNat s.v[x], rfl⟩⟩

/-! ### The stores (R98, R99) -/

/-- The checked store of a list of bytes from `I` up, the highest at `I + k`. -/
theorem checkData_writeBytes (s : State) (k : Nat) (bs : List Byte) (hlen : bs.length = k + 1) {result : Result}
    (hresult : result = checkData (k + 1) s { s with mem := s.mem.writeBytes s.i.toNat bs }.advance) :
    (4095 < s.i.toNat + k → result = .next { s with fault := ⟨.dataOutOfRange, s.pc, s.i⟩ }) ∧
    (s.i.toNat + k ≤ 4095 →
      ∃ t, result = .next t ∧ (∀ (j : Nat) (hj : j < bs.length), t.mem.read (s.i.toNat + j) = bs[j]) ∧
        (∀ a, a < s.i.toNat ∨ s.i.toNat + k < a → t.mem.read a = s.mem.read a) ∧
        t = { s with mem := t.mem, pc := s.pc + 2 }) := by
  subst hresult
  constructor
  · intro hbeyond
    exact checkData_of_not_fits _ s _ (Nat.succ_ne_zero k) hbeyond
  · intro hwithin
    refine ⟨_, checkData_of_fits _ s _ (.inr hwithin), ?_, ?_, rfl⟩
    · intro j hj
      exact Memory.read_writeBytes_inside s.mem s.i.toNat bs j hj (by omega)
    · intro a ha
      exact Memory.read_writeBytes_outside s.mem s.i.toNat bs a (by omega)

@[simp] theorem bcdDigits_length (b : Byte) : (bcdDigits b).length = 3 := rfl

/-- The digits fit a byte, so each is stored as its number (R98). -/
theorem bcdDigits_toNat (b : Byte) :
    (bcdDigits b)[0].toNat = b.toNat / 100 ∧ (bcdDigits b)[1].toNat = b.toNat / 10 % 10 ∧
    (bcdDigits b)[2].toNat = b.toNat % 10 := by
  have hb : b.toNat < 256 := b.isLt
  exact ⟨Nat.mod_eq_of_lt (by omega), Nat.mod_eq_of_lt (by omega), Nat.mod_eq_of_lt (by omega)⟩

/-- Settles O34: the store is of the three digits, which the list gives in the order of their addresses. -/
theorem bcdStoresThreeDigits : Obligations.BcdStoresThreeDigits := by
  intro x s
  obtain ⟨hfault, hstore⟩ :=
    checkData_writeBytes s 2 (bcdDigits s.v[x]) (bcdDigits_length s.v[x]) (result := exec (.ldBVx x) s) rfl
  refine ⟨hfault, fun hwithin => ?_⟩
  obtain ⟨t, hnext, hbytes, hothers, hframe⟩ := hstore hwithin
  obtain ⟨hhundreds, htens, hunits⟩ := bcdDigits_toNat s.v[x]
  refine ⟨t, hnext, ?_, ?_, ?_, hothers, hframe⟩
  · exact (congrArg BitVec.toNat (hbytes 0 (by simp))).trans hhundreds
  · exact (congrArg BitVec.toNat (hbytes 1 (by simp))).trans htens
  · exact (congrArg BitVec.toNat (hbytes 2 (by simp))).trans hunits

/-- Settles O35: the store is of the registers up to `V[x]`, the `r`-th of which is `V[r]`. -/
theorem storeBlockWritesVUpToX : Obligations.StoreBlockWritesVUpToX := by
  intro x s
  obtain ⟨hfault, hstore⟩ :=
    checkData_writeBytes s x.val (s.regsUpTo x) (regsUpTo_length s x) (result := exec (.storeRegs x) s) rfl
  refine ⟨hfault, fun hwithin => ?_⟩
  obtain ⟨t, hnext, hbytes, hothers, hframe⟩ := hstore hwithin
  refine ⟨t, hnext, ?_, hothers, hframe⟩
  intro r hr
  have hin : r.val < (s.regsUpTo x).length := by
    rw [regsUpTo_length]
    exact Nat.lt_succ_of_le hr
  exact (hbytes r.val hin).trans (regsUpTo_getElem s x r.val hin r.isLt)

/-! ### The load (R100) -/

/-- Settles O36: a register is loaded where its number is below `x + 1`. -/
theorem loadBlockReadsVUpToX : Obligations.LoadBlockReadsVUpToX := by
  intro x s
  constructor
  · intro hbeyond
    exact checkData_of_not_fits _ s _ (Nat.succ_ne_zero x.val) hbeyond
  · intro hwithin
    refine ⟨_, checkData_of_fits _ s _ (.inr hwithin), ?_, ?_, rfl⟩
    · intro r hr
      exact (loadBlock_getElem s.mem s.i.toNat (x.val + 1) s.v r).trans (if_pos (Nat.lt_succ_of_le hr))
    · intro r hr
      exact (loadBlock_getElem s.mem s.i.toNat (x.val + 1) s.v r).trans (if_neg (Nat.not_lt.mpr hr))

end Sys2Proof.Machine
end

section
/-! PROOFS. The display: its clear and the sprite draw (43_display.md). -/

namespace Sys2Proof.Machine

/-! ### The clear (R106) -/

theorem blank_pixel (r : Fin 32) (c : Fin 64) : Display.pixel (Vector.replicate 32 0) r c = false := by
  simp [Display.pixel]

/-- Settles O39: the next state's row words are all 0, so each of their bits is. -/
theorem clearBlanksTheDisplay : Obligations.ClearBlanksTheDisplay := by
  intro s
  refine ⟨{ s with display := Vector.replicate 32 0, drawFlag := true }.advance, rfl, ?_, rfl⟩
  intro r c
  rw [advance_display, blank_pixel]

/-! ### One pixel (R105, R107) -/

theorem columnBit_getMsbD (c c' : Fin 64) : (columnBit c).getMsbD c' = decide (c' = c) := by
  have hsame : 63 - c.val = 63 - c'.val ↔ c' = c := by omega
  have hbit : 63 - c.val < 64 := by omega
  simp [columnBit, BitVec.getMsbD, BitVec.getLsbD_twoPow, hsame, hbit]

/-- A toggle flips its own pixel and no other. -/
theorem toggle_pixel (d : Display) (r r' : Fin 32) (c c' : Fin 64) :
    (d.toggle r c).pixel r' c' = (d.pixel r' c' ^^ decide (r' = r ∧ c' = c)) := by
  by_cases hr : r' = r
  · subst hr
    simp [Display.toggle, Display.pixel, columnBit_getMsbD]
  · have hne : r.val ≠ r'.val := fun h => hr (Fin.ext h.symm)
    simp [Display.toggle, Display.pixel, hr, Vector.getElem_set_ne _ _ hne]

theorem eq_spriteRow_iff (cy r : Nat) (row : Fin 32) : row = spriteRow cy r ↔ row.val = (cy + r) % 32 := Fin.ext_iff

theorem eq_spriteCol_iff (cx b : Nat) (col : Fin 64) : col = spriteCol cx b ↔ col.val = (cx + b) % 64 := Fin.ext_iff

/-- Sprite rows less than 32 apart reach different display rows. -/
theorem spriteRow_ne {cy j k : Nat} (hjk : j < k) (hk : k < 32) : spriteRow cy j ≠ spriteRow cy k := by
  rw [Ne, eq_spriteRow_iff]
  show (cy + j) % 32 ≠ (cy + k) % 32
  omega

/-- Sprite bits less than 64 apart reach different display columns. -/
theorem spriteCol_ne {cx j k : Nat} (hjk : j < k) (hk : k < 64) : spriteCol cx j ≠ spriteCol cx k := by
  rw [Ne, eq_spriteCol_iff]
  show (cx + j) % 64 ≠ (cx + k) % 64
  omega

/-! ### Toggling a set of pixels -/

/-- Drawing that led from `t` to `u` toggled exactly the pixels of `lit`, each once, and a collision is recorded
in `u` iff it was in `t` or one of those pixels was set there (R107). -/
structure Toggled (lit : Fin 32 → Fin 64 → Prop) (t u : Raster) : Prop where
  inside : ∀ row col, lit row col → u.display.pixel row col = !t.display.pixel row col
  outside : ∀ row col, ¬ lit row col → u.display.pixel row col = t.display.pixel row col
  hit : u.hit = true ↔ t.hit = true ∨ ∃ row col, lit row col ∧ t.display.pixel row col = true

namespace Toggled

variable {lit lit' : Fin 32 → Fin 64 → Prop} {t u w : Raster}

/-- The set matters only by its pixels. -/
theorem congr (h : Toggled lit t u) (hiff : ∀ row col, lit' row col ↔ lit row col) : Toggled lit' t u := by
  have heq : lit' = lit := funext₂ fun row col => propext (hiff row col)
  rwa [heq]

theorem of_empty (hnone : ∀ row col, ¬ lit row col) : Toggled lit t t where
  inside row col hlit := absurd hlit (hnone row col)
  outside _ _ _ := rfl
  hit := by simp [hnone]

/-- Two draws over disjoint sets toggle their union: the second meets its pixels as they were before the first. -/
theorem trans (h : Toggled lit t u) (h' : Toggled lit' u w) (hdisj : ∀ row col, lit row col → ¬ lit' row col) :
    Toggled (fun row col => lit row col ∨ lit' row col) t w where
  inside row col hunion := by
    rcases hunion with hlit | hlit'
    · rw [h'.outside row col (hdisj row col hlit), h.inside row col hlit]
    · rw [h'.inside row col hlit', h.outside row col fun hlit => hdisj row col hlit hlit']
  outside row col hneither := by
    obtain ⟨hlit, hlit'⟩ := not_or.mp hneither
    rw [h'.outside row col hlit', h.outside row col hlit]
  hit := by
    have hsecond : (∃ row col, lit' row col ∧ u.display.pixel row col = true) ↔
        ∃ row col, lit' row col ∧ t.display.pixel row col = true := by
      refine exists₂_congr fun row col => and_congr_right fun hlit' => ?_
      rw [h.outside row col fun hlit => hdisj row col hlit hlit']
    simp only [h'.hit, h.hit, hsecond, or_and_right, exists_or, or_assoc]

/-- A loop whose rounds toggle pairwise disjoint sets toggles their union. -/
theorem foldl_range (f : Raster → Nat → Raster) (lits : Nat → Fin 32 → Fin 64 → Prop) (n : Nat)
    (hround : ∀ k t, Toggled (lits k) t (f t k))
    (hdisj : ∀ j k, j < k → k < n → ∀ row col, lits j row col → ¬ lits k row col) (t : Raster) :
    Toggled (fun row col => ∃ k < n, lits k row col) t ((List.range n).foldl f t) := by
  induction n with
  | zero => exact of_empty fun _ _ ⟨_, hk, _⟩ => absurd hk (Nat.not_lt_zero _)
  | succ n ih =>
    rw [List.range_succ, List.foldl_append]
    have hbefore := ih fun j k hjk hk => hdisj j k hjk (Nat.lt_succ_of_lt hk)
    have hlast : ∀ row col, (∃ k < n, lits k row col) → ¬ lits n row col :=
      fun row col ⟨k, hk, hlit⟩ => hdisj k n hk n.lt_succ_self row col hlit
    exact (hbefore.trans (hround n _) hlast).congr fun row col => Nat.exists_lt_succ_right

end Toggled

/-! ### The sprite (R107) -/

/-- The pixel under sprite bit `b` of sprite row `r`, if that bit is 1. -/
def underBit (cx cy r : Nat) (byte : Byte) (b : Nat) (row : Fin 32) (col : Fin 64) : Prop :=
  byte.getMsbD b = true ∧ row = spriteRow cy r ∧ col = spriteCol cx b

/-- The pixels under the bits of sprite row `r` that are 1. -/
def underRow (cx cy r : Nat) (byte : Byte) (row : Fin 32) (col : Fin 64) : Prop :=
  ∃ b < 8, underBit cx cy r byte b row col

/-- The pixels under the bits of an `n`-row sprite that are 1. -/
def underSprite (m : Memory) (base cx cy n : Nat) (row : Fin 32) (col : Fin 64) : Prop :=
  ∃ r < n, underRow cx cy r (m.read (base + r)) row col

theorem drawBit_toggled (cx cy r : Nat) (byte : Byte) (b : Nat) (t : Raster) :
    Toggled (underBit cx cy r byte b) t (drawBit cx cy r byte b t) := by
  by_cases hbit : byte.getMsbD b = true
  · rw [drawBit, if_pos hbit]
    refine ⟨?_, ?_, ?_⟩
    · rintro row col ⟨-, hrow, hcol⟩
      simp [toggle_pixel, hrow, hcol]
    · intro row col hother
      have hne : ¬ (row = spriteRow cy r ∧ col = spriteCol cx b) := fun h => hother ⟨hbit, h⟩
      simp [toggle_pixel, hne]
    · simp [underBit, hbit, and_assoc]
  · rw [drawBit, if_neg hbit]
    exact Toggled.of_empty fun _ _ ⟨hset, _⟩ => hbit hset

theorem drawRow_toggled (cx cy r : Nat) (byte : Byte) (t : Raster) :
    Toggled (underRow cx cy r byte) t (drawRow cx cy r byte t) := by
  refine Toggled.foldl_range _ (underBit cx cy r byte) 8 (drawBit_toggled cx cy r byte) ?_ t
  rintro j k hjk hk row col ⟨-, -, hj⟩ ⟨-, -, hk'⟩
  exact spriteCol_ne hjk (by omega) (hj.symm.trans hk')

/-- A sprite of at most 32 rows toggles each of its pixels once, however it wraps. -/
theorem drawSprite_toggled (m : Memory) (base cx cy n : Nat) (hn : n ≤ 32) (t : Raster) :
    Toggled (underSprite m base cx cy n) t (drawSprite m base cx cy n t) := by
  refine Toggled.foldl_range _ (fun r => underRow cx cy r (m.read (base + r))) n ?_ ?_ t
  · exact fun r => drawRow_toggled cx cy r _
  · rintro j k hjk hk row col ⟨-, -, -, hj, -⟩ ⟨-, -, -, hk', -⟩
    exact spriteRow_ne hjk (by omega) (hj.symm.trans hk')

/-- The set in the numbers of R105 and R107: bit `b` counts from the most significant. -/
theorem underSprite_iff (m : Memory) (base cx cy n : Nat) (row : Fin 32) (col : Fin 64) :
    underSprite m base cx cy n row col ↔
      ∃ r b : Nat, r < n ∧ b < 8 ∧ (m.read (base + r)).getLsbD (7 - b) = true ∧
        row.val = (cy + r) % 32 ∧ col.val = (cx + b) % 64 := by
  have hmsb : ∀ (byte : Byte) (b : Nat), b < 8 → byte.getMsbD b = byte.getLsbD (7 - b) := by
    intro byte b hb
    simp [BitVec.getMsbD, hb]
  simp only [underSprite, underRow, underBit, eq_spriteRow_iff, eq_spriteCol_iff]
  constructor
  · rintro ⟨r, hr, b, hb, hbit, hplace⟩
    exact ⟨r, b, hr, hb, hmsb _ b hb ▸ hbit, hplace⟩
  · rintro ⟨r, b, hr, hb, hbit, hplace⟩
    exact ⟨r, hr, b, hb, hmsb _ b hb ▸ hbit, hplace⟩

/-! ### The instruction `Dxyn` -/

/-- The display and the collision that `Dxyn` leaves, drawn with `V[x]` and `V[y]` as they were before it. -/
def State.drawn (x y : Reg) (n : Fin 16) (s : State) : Raster :=
  drawSprite s.mem s.i.toNat s.v[x].toNat s.v[y].toNat n.val ⟨s.display, false⟩

/-- The state after `Dxyn`, where its bytes fit. -/
def State.afterDrw (x y : Reg) (n : Fin 16) (s : State) : State :=
  { s.setV flagReg (flagByte (s.drawn x y n).hit) with display := (s.drawn x y n).display, drawFlag := true }.advance

theorem exec_drw_eq (x y : Reg) (n : Fin 16) (s : State) :
    exec (.drw x y n) s = checkData n.val s (s.afterDrw x y n) := rfl

theorem drawn_toggled (x y : Reg) (n : Fin 16) (s : State) :
    Toggled (underSprite s.mem s.i.toNat s.v[x].toNat s.v[y].toNat n.val) ⟨s.display, false⟩ (s.drawn x y n) :=
  drawSprite_toggled _ _ _ _ _ (by omega) _

theorem afterDrw_v_flag (x y : Reg) (n : Fin 16) (s : State) :
    (s.afterDrw x y n).v[(15 : Fin 16)] = flagByte (s.drawn x y n).hit :=
  setV_flagReg_v_flag s _

theorem afterDrw_v_of_ne (x y : Reg) (n : Fin 16) (s : State) (r : Reg) (hr : r ≠ 15) :
    (s.afterDrw x y n).v[r] = s.v[r] :=
  setV_flagReg_v_of_ne s _ hr

/-- Settles O40: the draw toggles `underSprite`, which is the set that the statement describes, and it starts with no
collision seen, so `VF` tells whether one of those pixels was set. -/
theorem drawTogglesTheSpritePixels : Obligations.DrawTogglesTheSpritePixels := by
  intro x y n s under hunder
  have htoggled : Toggled under ⟨s.display, false⟩ (s.drawn x y n) :=
    (drawn_toggled x y n s).congr fun row col => (hunder row col).trans (underSprite_iff _ _ _ _ _ row col).symm
  obtain ⟨hinside, houtside, hhit⟩ := htoggled
  constructor
  · intro hrows hbeyond
    exact checkData_of_not_fits n.val s _ (by omega) (by omega)
  · intro hfits
    refine ⟨s.afterDrw x y n, ?_, hinside, houtside, ?_, ?_, afterDrw_v_of_ne x y n s, rfl⟩
    · rw [exec_drw_eq, checkData_of_fits _ _ _ (by omega)]
    · rintro ⟨row, col, hlit, hset⟩
      rw [afterDrw_v_flag, hhit.mpr (.inr ⟨row, col, hlit, hset⟩)]
      rfl
    · intro hclear
      have hmiss : (s.drawn x y n).hit = false := by
        rw [Bool.eq_false_iff, Ne, hhit]
        rintro (hfalse | ⟨row, col, hlit, hset⟩)
        · cases hfalse
        · exact Bool.false_ne_true ((hclear row col hlit).symm.trans hset)
      rw [afterDrw_v_flag, hmiss]
      rfl

end Sys2Proof.Machine
end

section
/-! PROOFS. The keypad and timer instructions, and the tick (44_keys_timers.md). -/

namespace Sys2Proof.Machine

/-! ### The keypad (R115 to R117) -/

/-- Settles O43: both are key checks, one followed by a skip on the key's state, the other by a skip on its negation. -/
theorem keySkipsReadTheNamedKey : Obligations.KeySkipsReadTheNamedKey := by
  intro x s
  constructor
  · intro hnone
    exact ⟨execSkp_of_no_key x s hnone, execSknp_of_no_key x s hnone⟩
  · intro k hk
    have hdown := skipIf_eq_of_iff s (c := s.keys[k]) Iff.rfl
    have hup := skipIf_eq_of_iff s (c := !s.keys[k]) (Iff.of_eq (Bool.not_eq_true' _))
    exact ⟨(execSkp_of_key x s k hk).trans (congrArg Host.Outcome.next hdown),
      (execSknp_of_key x s k hk).trans (congrArg Host.Outcome.next hup)⟩

/-- A key's number fits the byte that `Fx0A` writes. -/
theorem keyByte_toNat (k : Fin 16) : (BitVec.ofNat 8 k.val).toNat = k.val :=
  Nat.mod_eq_of_lt (by omega)

/-- Settles O44: by what the key scan finds. -/
theorem keyWaitTakesTheLeastKeyOrStalls : Obligations.KeyWaitTakesTheLeastKeyOrStalls := by
  intro x s
  constructor
  · intro hnone
    exact execLdVxK_of_none x s (leastKey_eq_none s.keys hnone)
  · intro k hdown hleast
    have hexec : exec (.ldVxK x) s = .next (s.setV x (.ofNat 8 k.val)).advance :=
      execLdVxK_of_least x s k (leastKey_eq_some s.keys k hdown hleast)
    rw [hexec]
    exact setV_advance_writes_one x (.ofNat 8 k.val) s (fun b => b.toNat = k.val) (keyByte_toNat k)

/-! ### The timer instructions (R118 to R120) -/

/-- Settles O45: `Fx07` writes one register; the other two replace one timer and move on. -/
theorem timerInstructionsMoveTheTimers : Obligations.TimerInstructionsMoveTheTimers := by
  intro x s
  exact ⟨setV_advance_writes_one x s.dt s (· = s.dt) rfl, rfl, rfl⟩

/-! ### The tick (R121) -/

/-- A decrementer is subtraction on numbers, which stays at 0 as the decrementer does. -/
theorem countDown_toNat (t : Byte) : (countDown t).toNat = t.toNat - 1 := by
  unfold countDown
  split
  case isTrue hpos => exact BitVec.toNat_sub_of_le (y := 1#8) (BitVec.le_def.mpr hpos)
  case isFalse hzero => omega

/-- Settles O46: the tick applies `countDown` to each timer. -/
theorem tickCountsBothTimersDown : Obligations.TickCountsBothTimersDown := by
  intro s
  exact ⟨tick s, rfl, countDown_toNat s.dt, countDown_toNat s.st, rfl⟩

end Sys2Proof.Machine
end

section
/-! PROOFS. The faults and the agents outside the engine (60_exceptions.md). -/

namespace Sys2Proof.Machine

/-! ### Who raises a fault, and when (R125, R126) -/

section RaisedExactlyWhen

/-! Each shared check of the model ends in its fault exactly where its condition holds, and else keeps the latch. -/

variable {s t : State}

/-- `p` is the instruction's own wording of "some byte of the footprint is above 4095". -/
theorem checkData_raises_iff {count : Nat} {after : State} {p : Prop} [Decidable p]
    (hp : p ↔ count ≠ 0 ∧ 4095 < s.i.toNat + (count - 1)) (h : checkData count s after = .next t)
    (hafter : after.fault = s.fault) :
    if p then t = { s with fault := ⟨.dataOutOfRange, s.pc, s.i⟩ } else t.fault = s.fault := by
  rw [ite_prop_iff_or, hp]
  obtain ⟨hfits, rfl⟩ | ⟨hcount, hbeyond, rfl⟩ := checkData_cases count s after t h
  · exact .inr ⟨by omega, hafter⟩
  · exact .inl ⟨⟨hcount, hbeyond⟩, rfl⟩

theorem checkKey_raises_iff {x : Reg} {after : Fin 16 → State} (hafter : ∀ k, (after k).fault = s.fault)
    (h : checkKey x s after = .next t) :
    if 15 < s.v[x].toNat then t = { s with fault := ⟨.keyIndexOutOfRange, s.pc, s.v[x].setWidth 16⟩ }
    else t.fault = s.fault := by
  rw [ite_prop_iff_or]
  obtain ⟨k, hk, rfl⟩ | ⟨hnone, rfl⟩ := checkKey_cases x s after t h
  · exact .inr ⟨by omega, hafter k⟩
  · exact .inl ⟨hnone, rfl⟩

theorem execCall_raises_iff {nnn : BitVec 12} (h : execCall nnn s = .next t) :
    if s.sp.val = 16 then t = { s with fault := ⟨.stackOverflow, s.pc, 16⟩ } else t.fault = s.fault := by
  rw [ite_prop_iff_or]
  obtain ⟨room, rfl⟩ | ⟨hfull, rfl⟩ := execCall_cases nnn s t h
  · exact .inr ⟨by omega, rfl⟩
  · exact .inl ⟨hfull, rfl⟩

theorem execRet_raises_iff (h : execRet s = .next t) :
    if s.sp.val = 0 then t = { s with fault := ⟨.stackUnderflow, s.pc, 0⟩ } else t.fault = s.fault := by
  rw [ite_prop_iff_or]
  obtain ⟨live, rfl⟩ | ⟨hempty, rfl⟩ := execRet_cases s t h
  · exact .inr ⟨by omega, rfl⟩
  · exact .inl ⟨hempty, rfl⟩

theorem execLdVxK_fault {x : Reg} (h : execLdVxK x s = .next t) : t.fault = s.fault := by
  obtain ⟨k, -, rfl⟩ | ⟨-, rfl⟩ := execLdVxK_cases x s t h
  · rfl
  · rfl

end RaisedExactlyWhen

/-- Settles O13: the fetch fault is `FetchBeyondMemoryFaults`; an instruction either ends in one of the shared checks, or
its next state keeps the latch by construction. -/
theorem faultsAreThoseOfTheTable : Obligations.FaultsAreThoseOfTheTable := by
  refine ⟨⟨rfl, rfl, rfl, rfl, rfl, rfl⟩, fun s hs => (fetchBeyondMemoryFaults s hs).1, ?_⟩
  intro i s t _ h
  cases i with
  | drw x y n => exact checkData_raises_iff (count := n.val) (by omega) h rfl
  | ldBVx x => exact checkData_raises_iff (count := 3) (by omega) h rfl
  | storeRegs x => exact checkData_raises_iff (count := x.val + 1) (by omega) h rfl
  | loadRegs x => exact checkData_raises_iff (count := x.val + 1) (by omega) h rfl
  | call nnn => exact execCall_raises_iff h
  | ret => exact execRet_raises_iff h
  | skp x => exact checkKey_raises_iff (fun k => skipIf_fault s s.keys[k]) h
  | sknp x => exact checkKey_raises_iff (fun k => skipIf_fault s (!s.keys[k])) h
  | ldVxK x => exact execLdVxK_fault h
  | seImm | sneImm | seReg | sneReg =>
    cases h
    exact skipIf_fault s _
  | _ =>
    cases h
    rfl

/-! ### The agents outside the engine (R137 to R140) -/

theorem setKey_keys_of_ne (s : State) (k : Fin 16) (b : Bool) (j : Fin 16) (hj : j ≠ k) :
    (setKey k b s).keys[j] = s.keys[j] := by
  have hne : k.val ≠ j.val := fun hkj => hj (Fin.ext hkj.symm)
  rw [setKey_keys, Fin.getElem_fin, Vector.getElem_set_ne _ _ hne, Fin.getElem_fin]

/-- The interface numbers a row word's bits from the right, a column from the left. -/
theorem getLsbD_row_eq_pixel (d : Display) (r : Fin 32) (c : Fin 64) :
    d[r].getLsbD (63 - c.val) = d.pixel r c := by
  rw [Display.pixel, BitVec.getMsbD, decide_eq_true c.isLt, Bool.true_and]

/-- Settles O49: `set_key` and `draw_ack` each replace one field, and the two observations return the state they read. -/
theorem collaboratorsTouchOnlyTheirFields : Obligations.CollaboratorsTouchOnlyTheirFields := by
  intro s
  refine ⟨?_, ⟨s.display, rfl, getLsbD_row_eq_pixel s.display⟩, rfl, rfl⟩
  intro k b
  have hset : (setKey k b s).keys[k] = b := by
    rw [setKey_keys, Fin.getElem_fin, Vector.getElem_set_self]
  exact ⟨setKey k b s, rfl, hset, setKey_keys_of_ne s k b, rfl⟩

end Sys2Proof.Machine
end

section
/-! PROOFS. Loading a program (70_reset_and_hazards.md R147). -/

namespace Sys2Proof.Machine

/-- Settles O50: by the length check's two branches; a program that passes it ends within the 4096 bytes, so every byte
of it is written. -/
theorem loadProgramCopiesOrRefusesWhole : Obligations.LoadProgramCopiesOrRefusesWhole := by
  intro bytes s
  constructor
  · intro hlarge
    rw [Event.apply, loadProgram_of_too_large bytes s hlarge]
  · intro hsmall
    have fits : 0x200 + bytes.length ≤ 4096 := by omega
    refine ⟨{ s with mem := s.mem.writeBytes 0x200 bytes }, ?_, ?_, ?_, rfl⟩
    · rw [Event.apply, loadProgram_of_fits bytes s hsmall]
    · intro j hj
      exact Memory.read_writeBytes_inside s.mem 0x200 bytes j hj fits
    · intro a houtside
      exact Memory.read_writeBytes_outside s.mem 0x200 bytes a houtside

end Sys2Proof.Machine
end

section
/-! PROOFS. The decoder and the encoder are inverse to each other, and which words no row accepts (30_encoding.md R45 to
R51). -/

namespace Sys2Proof

/-! ### A word by the formats of R47 -/

/-- The leading digit of a word, which every mask of R50 looks at. -/
def fieldOp (w : Word) : BitVec 4 := w.extractLsb' 12 4

theorem fieldOp_append_fieldNNN (w : Word) : fieldOp w ++ fieldNNN w = w :=
  (BitVec.extractLsb'_append_extractLsb'_eq_extractLsb' rfl).trans BitVec.extractLsb'_eq_self

theorem nibble_fieldX_append_fieldKK (w : Word) : nibble (fieldX w) ++ fieldKK w = fieldNNN w :=
  BitVec.extractLsb'_append_extractLsb'_eq_extractLsb' rfl

theorem nibble_fieldY_append_nibble_fieldN (w : Word) : nibble (fieldY w) ++ nibble (fieldN w) = fieldKK w :=
  BitVec.extractLsb'_append_extractLsb'_eq_extractLsb' rfl

theorem append_xkk (w : Word) : fieldOp w ++ nibble (fieldX w) ++ fieldKK w = w := by
  have hsplit : fieldOp w ++ nibble (fieldX w) ++ fieldKK w = fieldOp w ++ (nibble (fieldX w) ++ fieldKK w) :=
    BitVec.append_assoc
  rw [hsplit, nibble_fieldX_append_fieldKK, fieldOp_append_fieldNNN]

theorem append_xyn (w : Word) : fieldOp w ++ nibble (fieldX w) ++ nibble (fieldY w) ++ nibble (fieldN w) = w := by
  have hsplit : fieldOp w ++ nibble (fieldX w) ++ nibble (fieldY w) ++ nibble (fieldN w) =
      fieldOp w ++ nibble (fieldX w) ++ (nibble (fieldY w) ++ nibble (fieldN w)) := BitVec.append_assoc
  rw [hsplit, nibble_fieldY_append_nibble_fieldN, append_xkk]

theorem append_inj_iff {v w : Nat} {a b : BitVec v} {c d : BitVec w} : a ++ c = b ++ d ↔ a = b ∧ c = d := by
  refine ⟨fun h => ⟨?_, ?_⟩, fun ⟨hab, hcd⟩ => by rw [hab, hcd]⟩
  · rw [← BitVec.extractLsb'_append_eq_left (a := a) (b := c), h, BitVec.extractLsb'_append_eq_left]
  · rw [← BitVec.extractLsb'_append_eq_right (a := a) (b := c), h, BitVec.extractLsb'_append_eq_right]

section Fields
variable (op x : BitVec 4) (kk : Byte) (nnn : BitVec 12)

@[simp] theorem fieldNNN_append : fieldNNN (op ++ nnn) = nnn := BitVec.extractLsb'_append_eq_right

@[simp] theorem fieldKK_append : fieldKK (op ++ x ++ kk) = kk := BitVec.extractLsb'_append_eq_right

@[simp] theorem fieldX_append : fieldX (op ++ x ++ kk) = x.toFin :=
  congrArg BitVec.toFin ((BitVec.extractLsb'_append_eq_of_le (by decide)).trans BitVec.extractLsb'_append_eq_right)

end Fields
/-! ### The opcode map by formats (R47, R50)

Each row of the table is of one of six kinds, by which digits its mask looks at and which operands it reads. -/

/-- A row for the leading digit `op`, with an address as operand. -/
def nnnRow (op : BitVec 4) (make : BitVec 12 → Instr) : OpcodeRow :=
  ⟨0xF000, op ++ 0#12, fun w => make (fieldNNN w)⟩

/-- A row for the leading digit `op`, with a register and a byte as operands. -/
def xkkRow (op : BitVec 4) (make : Reg → Byte → Instr) : OpcodeRow :=
  ⟨0xF000, op ++ 0#4 ++ 0#8, fun w => make (fieldX w) (fieldKK w)⟩

/-- A row for the leading digit `op` and the last digit `n`, with two registers as operands. -/
def xyRow (op n : BitVec 4) (make : Reg → Reg → Instr) : OpcodeRow :=
  ⟨0xF00F, op ++ 0#4 ++ 0#4 ++ n, fun w => make (fieldX w) (fieldY w)⟩

/-- A row for the leading digit `op`, with two registers and a count as operands. -/
def xynRow (op : BitVec 4) (make : Reg → Reg → Fin 16 → Instr) : OpcodeRow :=
  ⟨0xF000, op ++ 0#4 ++ 0#4 ++ 0#4, fun w => make (fieldX w) (fieldY w) (fieldN w)⟩

/-- A row for the leading digit `op` and the low byte `kk`, with a register as operand. -/
def xRow (op : BitVec 4) (kk : Byte) (make : Reg → Instr) : OpcodeRow :=
  ⟨0xF0FF, op ++ 0#4 ++ kk, fun w => make (fieldX w)⟩

/-- A row for one word, with no operand. -/
def wholeRow (op : BitVec 4) (nnn : BitVec 12) (i : Instr) : OpcodeRow :=
  ⟨0xFFFF, op ++ nnn, fun _ => i⟩

/-- The table row by row, in the order of R50. -/
theorem opcodeTable_eq : opcodeTable =
    [wholeRow 0x0 0x0E0 .cls, wholeRow 0x0 0x0EE .ret, nnnRow 0x1 .jp, nnnRow 0x2 .call, xkkRow 0x3 .seImm,
      xkkRow 0x4 .sneImm, xyRow 0x5 0x0 .seReg, xkkRow 0x6 .ldImm, xkkRow 0x7 .addImm,
      xyRow 0x8 0x0 .ldReg, xyRow 0x8 0x1 .orReg, xyRow 0x8 0x2 .andReg, xyRow 0x8 0x3 .xorReg, xyRow 0x8 0x4 .addReg,
      xyRow 0x8 0x5 .subReg, xyRow 0x8 0x6 .shr, xyRow 0x8 0x7 .subnReg, xyRow 0x8 0xE .shl,
      xyRow 0x9 0x0 .sneReg, nnnRow 0xA .ldI, nnnRow 0xB .jpV0, xkkRow 0xC .rnd, xynRow 0xD .drw, xRow 0xE 0x9E .skp,
      xRow 0xE 0xA1 .sknp,
      xRow 0xF 0x07 .ldVxDt, xRow 0xF 0x0A .ldVxK, xRow 0xF 0x15 .ldDtVx, xRow 0xF 0x18 .ldStVx, xRow 0xF 0x1E .addIVx,
      xRow 0xF 0x29 .ldFVx, xRow 0xF 0x33 .ldBVx, xRow 0xF 0x55 .storeRegs, xRow 0xF 0x65 .loadRegs] := rfl

/-! ### Decoding an encoded instruction -/

theorem decodeWord_of_masked {r : OpcodeRow} (hr : r ∈ opcodeTable) {w : Word} (hw : w &&& r.mask = r.pattern) :
    decodeWord w = r.build w :=
  decodeWord_of_accepts r hr w ((accepts_iff r w).mpr hw)

theorem decodeWord_whole {op : BitVec 4} {nnn : BitVec 12} {i : Instr} (hr : wholeRow op nnn i ∈ opcodeTable) :
    decodeWord (op ++ nnn) = i :=
  decodeWord_of_masked hr BitVec.and_allOnes

theorem decodeWord_nnn {op : BitVec 4} {make : BitVec 12 → Instr} (hr : nnnRow op make ∈ opcodeTable)
    (nnn : BitVec 12) : decodeWord (op ++ nnn) = make nnn :=
  (decodeWord_of_masked hr (mask_nnn op nnn)).trans (by simp [nnnRow])

theorem decodeWord_xkk {op : BitVec 4} {make : Reg → Byte → Instr} (hr : xkkRow op make ∈ opcodeTable) (x : Reg)
    (kk : Byte) : decodeWord (op ++ nibble x ++ kk) = make x kk :=
  (decodeWord_of_masked hr (mask_xkk op (nibble x) kk)).trans (by simp [xkkRow])

theorem decodeWord_xy {op n : BitVec 4} {make : Reg → Reg → Instr} (hr : xyRow op n make ∈ opcodeTable) (x y : Reg) :
    decodeWord (op ++ nibble x ++ nibble y ++ n) = make x y :=
  (decodeWord_of_masked hr (mask_xy op (nibble x) (nibble y) n)).trans (by simp [xyRow])

theorem decodeWord_xyn {op : BitVec 4} {make : Reg → Reg → Fin 16 → Instr} (hr : xynRow op make ∈ opcodeTable)
    (x y : Reg) (n : Fin 16) : decodeWord (op ++ nibble x ++ nibble y ++ nibble n) = make x y n :=
  (decodeWord_of_masked hr (mask_xyn op (nibble x) (nibble y) (nibble n))).trans (by simp [xynRow])

theorem decodeWord_x {op : BitVec 4} {kk : Byte} {make : Reg → Instr} (hr : xRow op kk make ∈ opcodeTable) (x : Reg) :
    decodeWord (op ++ nibble x ++ kk) = make x :=
  (decodeWord_of_masked hr (mask_x op (nibble x) kk)).trans (by simp [xRow])

theorem row_mem (k : Nat) (hk : k < opcodeTable.length := by decide) : opcodeTable[k] ∈ opcodeTable :=
  List.getElem_mem hk

/-- The encoded word of an instruction is accepted by the instruction's own row, which reads its operands back. -/
theorem decodeWord_encodeWord (i : Instr) (hi : i.wellFormed = true) : decodeWord (encodeWord i) = i := by
  cases i with
  | cls => exact decodeWord_whole (op := 0x0) (nnn := 0x0E0) (row_mem 0)
  | ret => exact decodeWord_whole (op := 0x0) (nnn := 0x0EE) (row_mem 1)
  | jp nnn => exact decodeWord_nnn (row_mem 2) nnn
  | call nnn => exact decodeWord_nnn (row_mem 3) nnn
  | seImm x kk => exact decodeWord_xkk (row_mem 4) x kk
  | sneImm x kk => exact decodeWord_xkk (row_mem 5) x kk
  | seReg x y => exact decodeWord_xy (row_mem 6) x y
  | ldImm x kk => exact decodeWord_xkk (row_mem 7) x kk
  | addImm x kk => exact decodeWord_xkk (row_mem 8) x kk
  | ldReg x y => exact decodeWord_xy (row_mem 9) x y
  | orReg x y => exact decodeWord_xy (row_mem 10) x y
  | andReg x y => exact decodeWord_xy (row_mem 11) x y
  | xorReg x y => exact decodeWord_xy (row_mem 12) x y
  | addReg x y => exact decodeWord_xy (row_mem 13) x y
  | subReg x y => exact decodeWord_xy (row_mem 14) x y
  | shr x y => exact decodeWord_xy (row_mem 15) x y
  | subnReg x y => exact decodeWord_xy (row_mem 16) x y
  | shl x y => exact decodeWord_xy (row_mem 17) x y
  | sneReg x y => exact decodeWord_xy (row_mem 18) x y
  | ldI nnn => exact decodeWord_nnn (row_mem 19) nnn
  | jpV0 nnn => exact decodeWord_nnn (row_mem 20) nnn
  | rnd x kk => exact decodeWord_xkk (row_mem 21) x kk
  | drw x y n => exact decodeWord_xyn (row_mem 22) x y n
  | skp x => exact decodeWord_x (row_mem 23) x
  | sknp x => exact decodeWord_x (row_mem 24) x
  | ldVxDt x => exact decodeWord_x (row_mem 25) x
  | ldVxK x => exact decodeWord_x (row_mem 26) x
  | ldDtVx x => exact decodeWord_x (row_mem 27) x
  | ldStVx x => exact decodeWord_x (row_mem 28) x
  | addIVx x => exact decodeWord_x (row_mem 29) x
  | ldFVx x => exact decodeWord_x (row_mem 30) x
  | ldBVx x => exact decodeWord_x (row_mem 31) x
  | storeRegs x => exact decodeWord_x (row_mem 32) x
  | loadRegs x => exact decodeWord_x (row_mem 33) x
  | unrecognized w => exact decodeWord_of_not_recognized w (by simpa [Instr.wellFormed] using hi)

/-- Settles O7: a decoded word is the word of the two bytes, which is the encoded word. -/
theorem decodeReadsBackEncode : Obligations.DecodeReadsBackEncode := by
  intro i rest hi
  have hread : decodeWord (wordOfBytes (highByte (encodeWord i)) (lowByte (encodeWord i))) = i := by
    rw [wordOfBytes_high_low, decodeWord_encodeWord i hi]
  exact congrArg (fun j => Except.ok (j, rest)) hread

/-! ### Which words a row accepts (R49) -/

section Accepts

/-! By format, which digits of the word decide. -/

variable (op n : BitVec 4) (kk : Byte) (w : Word)

theorem wholeRow_accepts_iff (nnn : BitVec 12) (i : Instr) :
    (wholeRow op nnn i).accepts w = true ↔ fieldOp w = op ∧ fieldNNN w = nnn := by
  conv_lhs => rw [accepts_iff, ← fieldOp_append_fieldNNN w]
  exact (Eq.congr_left BitVec.and_allOnes).trans append_inj_iff

theorem nnnRow_accepts_iff (make : BitVec 12 → Instr) : (nnnRow op make).accepts w = true ↔ fieldOp w = op := by
  conv_lhs => rw [accepts_iff, ← fieldOp_append_fieldNNN w]
  exact (Eq.congr_left (mask_nnn _ _)).trans (BitVec.append_left_inj _)

theorem xkkRow_accepts_iff (make : Reg → Byte → Instr) : (xkkRow op make).accepts w = true ↔ fieldOp w = op := by
  conv_lhs => rw [accepts_iff, ← append_xkk w]
  exact (Eq.congr_left (mask_xkk _ _ _)).trans ((BitVec.append_left_inj _).trans (BitVec.append_left_inj _))

theorem xynRow_accepts_iff (make : Reg → Reg → Fin 16 → Instr) :
    (xynRow op make).accepts w = true ↔ fieldOp w = op := by
  conv_lhs => rw [accepts_iff, ← append_xyn w]
  refine (Eq.congr_left (mask_xyn _ _ _ _)).trans ?_
  rw [xynRow, BitVec.append_left_inj, BitVec.append_left_inj, BitVec.append_left_inj]

theorem xyRow_accepts_iff (make : Reg → Reg → Instr) :
    (xyRow op n make).accepts w = true ↔ fieldOp w = op ∧ nibble (fieldN w) = n := by
  conv_lhs => rw [accepts_iff, ← append_xyn w]
  refine (Eq.congr_left (mask_xy _ _ _ _)).trans ?_
  rw [xyRow, append_inj_iff, BitVec.append_left_inj, BitVec.append_left_inj]

theorem xRow_accepts_iff (make : Reg → Instr) :
    (xRow op kk make).accepts w = true ↔ fieldOp w = op ∧ fieldKK w = kk := by
  conv_lhs => rw [accepts_iff, ← append_xkk w]
  refine (Eq.congr_left (mask_x _ _ _)).trans ?_
  rw [xRow, append_inj_iff, BitVec.append_left_inj]

end Accepts

/-! ### Encoding a decoded word -/

/-- What a row builds from a word that it accepts is well formed and encodes as that word. -/
def OpcodeRow.RoundTrips (r : OpcodeRow) : Prop :=
  ∀ w, r.accepts w = true → encodeWord (r.build w) = w ∧ (r.build w).wellFormed = true

section RoundTrips

/-! By format, a row round-trips if what it makes of operands encodes as its digits and is well formed. -/

variable {op n : BitVec 4} {kk : Byte}

theorem wholeRow_roundTrips {nnn : BitVec 12} {i : Instr} (hencode : encodeWord i = op ++ nnn)
    (hwf : i.wellFormed = true) : (wholeRow op nnn i).RoundTrips := by
  intro w hw
  obtain ⟨rfl, rfl⟩ := (wholeRow_accepts_iff op w nnn i).mp hw
  exact ⟨hencode.trans (fieldOp_append_fieldNNN w), hwf⟩

theorem nnnRow_roundTrips {make : BitVec 12 → Instr} (hencode : ∀ nnn, encodeWord (make nnn) = op ++ nnn)
    (hwf : ∀ nnn, (make nnn).wellFormed = true) : (nnnRow op make).RoundTrips := by
  intro w hw
  obtain rfl := (nnnRow_accepts_iff op w make).mp hw
  exact ⟨(hencode _).trans (fieldOp_append_fieldNNN w), hwf _⟩

theorem xkkRow_roundTrips {make : Reg → Byte → Instr} (hencode : ∀ x kk, encodeWord (make x kk) = op ++ nibble x ++ kk)
    (hwf : ∀ x kk, (make x kk).wellFormed = true) : (xkkRow op make).RoundTrips := by
  intro w hw
  obtain rfl := (xkkRow_accepts_iff op w make).mp hw
  exact ⟨(hencode _ _).trans (append_xkk w), hwf _ _⟩

theorem xyRow_roundTrips {make : Reg → Reg → Instr}
    (hencode : ∀ x y, encodeWord (make x y) = op ++ nibble x ++ nibble y ++ n)
    (hwf : ∀ x y, (make x y).wellFormed = true) : (xyRow op n make).RoundTrips := by
  intro w hw
  obtain ⟨rfl, rfl⟩ := (xyRow_accepts_iff op n w make).mp hw
  exact ⟨(hencode _ _).trans (append_xyn w), hwf _ _⟩

theorem xynRow_roundTrips {make : Reg → Reg → Fin 16 → Instr}
    (hencode : ∀ x y n, encodeWord (make x y n) = op ++ nibble x ++ nibble y ++ nibble n)
    (hwf : ∀ x y n, (make x y n).wellFormed = true) : (xynRow op make).RoundTrips := by
  intro w hw
  obtain rfl := (xynRow_accepts_iff op w make).mp hw
  exact ⟨(hencode _ _ _).trans (append_xyn w), hwf _ _ _⟩

theorem xRow_roundTrips {make : Reg → Instr} (hencode : ∀ x, encodeWord (make x) = op ++ nibble x ++ kk)
    (hwf : ∀ x, (make x).wellFormed = true) : (xRow op kk make).RoundTrips := by
  intro w hw
  obtain ⟨rfl, rfl⟩ := (xRow_accepts_iff op kk w make).mp hw
  exact ⟨(hencode _).trans (append_xkk w), hwf _⟩

end RoundTrips

theorem opcodeTable_roundTrips : ∀ r ∈ opcodeTable, r.RoundTrips := by
  rw [opcodeTable_eq, ← List.forall_iff_forall_mem]
  exact ⟨wholeRow_roundTrips rfl rfl, wholeRow_roundTrips rfl rfl, nnnRow_roundTrips (fun _ => rfl) fun _ => rfl,
    nnnRow_roundTrips (fun _ => rfl) fun _ => rfl, xkkRow_roundTrips (fun _ _ => rfl) fun _ _ => rfl,
    xkkRow_roundTrips (fun _ _ => rfl) fun _ _ => rfl, xyRow_roundTrips (fun _ _ => rfl) fun _ _ => rfl,
    xkkRow_roundTrips (fun _ _ => rfl) fun _ _ => rfl, xkkRow_roundTrips (fun _ _ => rfl) fun _ _ => rfl,
    xyRow_roundTrips (fun _ _ => rfl) fun _ _ => rfl, xyRow_roundTrips (fun _ _ => rfl) fun _ _ => rfl,
    xyRow_roundTrips (fun _ _ => rfl) fun _ _ => rfl, xyRow_roundTrips (fun _ _ => rfl) fun _ _ => rfl,
    xyRow_roundTrips (fun _ _ => rfl) fun _ _ => rfl, xyRow_roundTrips (fun _ _ => rfl) fun _ _ => rfl,
    xyRow_roundTrips (fun _ _ => rfl) fun _ _ => rfl, xyRow_roundTrips (fun _ _ => rfl) fun _ _ => rfl,
    xyRow_roundTrips (fun _ _ => rfl) fun _ _ => rfl, xyRow_roundTrips (fun _ _ => rfl) fun _ _ => rfl,
    nnnRow_roundTrips (fun _ => rfl) fun _ => rfl, nnnRow_roundTrips (fun _ => rfl) fun _ => rfl,
    xkkRow_roundTrips (fun _ _ => rfl) fun _ _ => rfl, xynRow_roundTrips (fun _ _ _ => rfl) fun _ _ _ => rfl,
    xRow_roundTrips (fun _ => rfl) fun _ => rfl, xRow_roundTrips (fun _ => rfl) fun _ => rfl,
    xRow_roundTrips (fun _ => rfl) fun _ => rfl, xRow_roundTrips (fun _ => rfl) fun _ => rfl,
    xRow_roundTrips (fun _ => rfl) fun _ => rfl, xRow_roundTrips (fun _ => rfl) fun _ => rfl,
    xRow_roundTrips (fun _ => rfl) fun _ => rfl, xRow_roundTrips (fun _ => rfl) fun _ => rfl,
    xRow_roundTrips (fun _ => rfl) fun _ => rfl, xRow_roundTrips (fun _ => rfl) fun _ => rfl,
    xRow_roundTrips (fun _ => rfl) fun _ => rfl⟩

/-- Settles O8: a recognized word is read by the row that accepts it, which round-trips; any other stands for itself. -/
theorem encodeWritesBackDecode : Obligations.EncodeWritesBackDecode := by
  intro w
  cases hw : recognized w with
  | true =>
    obtain ⟨r, hr, haccepts⟩ := List.any_eq_true.mp hw
    rw [decodeWord_of_accepts r hr w haccepts]
    exact opcodeTable_roundTrips r hr w haccepts
  | false =>
    rw [decodeWord_of_not_recognized w hw]
    exact ⟨rfl, by rw [Instr.wellFormed, hw, Bool.not_false]⟩

/-! ### The words that no row accepts (R51) -/

theorem decodeWord_eq_unrecognized_iff (w : Word) : decodeWord w = .unrecognized w ↔ recognized w = false := by
  refine ⟨fun h => ?_, decodeWord_of_not_recognized w⟩
  have hwf := (encodeWritesBackDecode w).2
  rwa [h, Instr.wellFormed, Bool.not_eq_true'] at hwf

@[simp] theorem fieldOp_digits (op x y n : BitVec 4) : fieldOp (op ++ x ++ y ++ n) = op := by
  calc (op ++ x ++ y ++ n).extractLsb' 12 4
      _ = (op ++ x ++ y).extractLsb' 8 4 := BitVec.extractLsb'_append_eq_of_le (by decide)
      _ = (op ++ x).extractLsb' 4 4 := BitVec.extractLsb'_append_eq_of_le (by decide)
      _ = op := BitVec.extractLsb'_append_eq_left

theorem digit_cases (d : BitVec 4) :
    d = 0x0 ∨ d = 0x1 ∨ d = 0x2 ∨ d = 0x3 ∨ d = 0x4 ∨ d = 0x5 ∨ d = 0x6 ∨ d = 0x7 ∨ d = 0x8 ∨ d = 0x9 ∨ d = 0xA ∨
      d = 0xB ∨ d = 0xC ∨ d = 0xD ∨ d = 0xE ∨ d = 0xF := by
  decide +revert

/-- Settles O6: no row accepts, which its format says of the word's digits; for each leading digit that is the
statement's condition. -/
theorem unrecognizedWordsAreTheSixSets : Obligations.UnrecognizedWordsAreTheSixSets := by
  intro op x y n
  rw [decodeWord_eq_unrecognized_iff, recognized, List.any_eq_false, opcodeTable_eq]
  simp only [List.forall_mem_cons, List.not_mem_nil, false_implies, implies_true, wholeRow_accepts_iff,
    nnnRow_accepts_iff, xkkRow_accepts_iff, xyRow_accepts_iff, xynRow_accepts_iff, xRow_accepts_iff, fieldOp_digits,
    fieldNNN_digits, fieldN_digits, fieldKK_digits, nibble_toFin]
  obtain rfl | rfl | rfl | rfl | rfl | rfl | rfl | rfl | rfl | rfl | rfl | rfl | rfl | rfl | rfl | rfl := digit_cases op
  all_goals simp
  -- left is the digit 8, where the rows name the other values of `n`
  revert n
  decide

/-! ### Words written out (95_test_vectors.md) -/

/-- Settles O2: each word is the encoding of the instruction named. -/
theorem writtenOutWordsDecode : Obligations.WrittenOutWordsDecode :=
  ⟨decodeWord_encodeWord (.drw 7 0xA 5) rfl, decodeWord_encodeWord (.shr 0xA 0xB) rfl,
    decodeWord_encodeWord (.addIVx 0) rfl, decodeWord_encodeWord .cls rfl,
    decodeWord_encodeWord (.unrecognized 0x00E1) (by decide), decodeWord_encodeWord (.jp 0xABC) rfl,
    decodeWord_encodeWord (.ldImm 0xA 0x37) rfl, decodeWord_encodeWord (.skp 4) rfl⟩

end Sys2Proof
end

section
/-! PROOFS. The step as a whole: what it runs, that it completes, and where it ends (00_scope.md R2, 20_memory.md R41,
30_encoding.md R51, 70_reset_and_hazards.md R149). -/

namespace Sys2Proof.Machine

/-- Settles O9: the bytes at `PC` make the word that the step fetches. -/
theorem stepRunsTheDecodedInstruction : Obligations.StepRunsTheDecodedInstruction := by
  intro s i rest hs hpc hdecode
  cases hdecode
  exact step_of_fetchWord_eq_some hs ((fetchWord_eq_some s _).mpr ⟨hpc, rfl⟩)

/-! ### Every instruction completes (R51) -/

theorem checkData_completes (count : Nat) (s after : State) : ∃ t, checkData count s after = .next t := by
  by_cases hfits : count = 0 ∨ s.i.toNat + (count - 1) ≤ 4095
  · exact ⟨_, checkData_of_fits count s after hfits⟩
  · exact ⟨_, checkData_of_not_fits count s after (by omega) (by omega)⟩

theorem checkKey_completes (x : Reg) (s : State) (after : Fin 16 → State) : ∃ t, checkKey x s after = .next t := by
  by_cases hkey : s.v[x].toNat < 16
  · exact ⟨_, checkKey_of_key x s after ⟨_, hkey⟩ rfl⟩
  · exact ⟨_, checkKey_of_no_key x s after (by omega)⟩

theorem execRet_completes (s : State) : ∃ t, execRet s = .next t := by
  by_cases live : 0 < s.sp.val
  · exact ⟨_, execRet_of_live s live⟩
  · exact ⟨_, execRet_of_empty s (by omega)⟩

theorem execCall_completes (nnn : BitVec 12) (s : State) : ∃ t, execCall nnn s = .next t := by
  by_cases room : s.sp.val < 16
  · exact ⟨_, execCall_of_room nnn s room⟩
  · exact ⟨_, execCall_of_full nnn s (by omega)⟩

theorem execLdVxK_completes (x : Reg) (s : State) : ∃ t, execLdVxK x s = .next t := by
  cases hkey : leastKey s.keys with
  | some k => exact ⟨_, execLdVxK_of_least x s k hkey⟩
  | none => exact ⟨_, execLdVxK_of_none x s hkey⟩

theorem exec_completes (i : Instr) (s : State) : ∃ t, exec i s = .next t := by
  cases i with
  | ret => exact execRet_completes s
  | call nnn => exact execCall_completes nnn s
  | drw | ldBVx | storeRegs | loadRegs => exact checkData_completes _ s _
  | skp x => exact checkKey_completes x s fun k => s.skipIf s.keys[k]
  | sknp x => exact checkKey_completes x s fun k => s.skipIf (!s.keys[k])
  | ldVxK x => exact execLdVxK_completes x s
  | _ => exact ⟨_, rfl⟩

/-- Settles O15: the fetch finds a word, whose instruction completes, or the step ends in the fetch fault. -/
theorem everyEnabledStepCompletes : Obligations.EveryEnabledStepCompletes := by
  intro s hs
  constructor
  · cases hw : fetchWord s with
    | some w =>
      rw [step_of_fetchWord_eq_some hs hw]
      exact exec_completes (decodeWord w) s
    | none => exact ⟨_, step_of_fetchWord_eq_none hs hw⟩
  · intro w hw hdecode
    rw [step_of_fetchWord_eq_some hs hw, hdecode]
    exact unrecognizedWordIsANoOp w s

/-! ### A terminal state (R149) -/

theorem run_of_step_eq_self {M : Host.Core} {s : M.State} (h : M.step s = .next s) (k : Nat) : M.run k s = .next s := by
  induction k with
  | zero => rfl
  | succ k ih =>
    rw [Host.Core.run, h]
    exact ih

/-- Settles O54: the jump sets `PC` to the address that it already holds. -/
theorem terminalStateStepsToItself : Obligations.TerminalStateStepsToItself := by
  rintro s ⟨hs, nnn, hfetch, hpc⟩
  obtain ⟨w, hw, hdecode⟩ := Option.map_eq_some_iff.mp hfetch
  have hstep : step s = .next s := by
    rw [step_of_fetchWord_eq_some hs hw, hdecode]
    show Host.Outcome.next (s.jumpTo (zext12 nnn)) = .next s
    rw [← hpc, State.jumpTo]
  exact ⟨hstep, run_of_step_eq_self (M := Sys2Proof.core) hstep⟩

/-! ### A store over the next instruction (20_memory.md R41) -/

/-- Settles O37: after the store `PC` is the old `I`, where the first two bytes stored are `V[0]` and `V[1]`. -/
theorem nextFetchSeesTheStore : Obligations.NextFetchSeesTheStore := by
  intro x s hs hx hi hwithin
  obtain ⟨t, hnext, hbytes, -, hframe⟩ := (storeBlockWritesVUpToX x s).2 hwithin
  have hpc : t.pc = s.i := by rw [hframe, hi]
  have hunfaulted : t.unfaulted := by rw [hframe]; exact hs
  have hfetch : fetchWord t = some (s.v[(0 : Fin 16)] ++ s.v[(1 : Fin 16)]) := by
    rw [fetchWord_eq_some, hpc]
    refine ⟨by omega, ?_⟩
    rw [← hbytes 0 (Fin.zero_le x), ← hbytes 1 hx]
    rfl
  exact ⟨t, hnext, step_of_fetchWord_eq_some hunfaulted hfetch⟩

/-! ### A return directly after a call (40_control_flow.md R61, R63) -/

/-- Settles O19: the return pops the slot that the call has just written. -/
theorem returnUndoesCall : Obligations.ReturnUndoesCall := by
  intro nnn s j hj
  obtain ⟨t, hcall, hslot, hothers, hsp, -, ht⟩ := (callPushesItsOwnAddress nnn s).2 j hj
  obtain ⟨u, hret, hsp', hpc, hu⟩ := (returnPopsAndAddsTwo t).2 j hsp
  have hstack : u.stack = t.stack := by rw [hu]
  have hspEq : u.sp = s.sp := Fin.ext (hsp'.trans hj.symm)
  refine ⟨t, u, hcall, hret, ?_, hstack ▸ hslot, hstack ▸ hothers⟩
  rw [hu, ht, hspEq, hpc, hslot]

/-! ### The random byte (41_alu.md R87) -/

/-- Settles O31: the draw writes one register, with the byte at the counter under the mask. -/
theorem randomIsAFreeByteUnderTheMask : Obligations.RandomIsAFreeByteUnderTheMask := by
  intro x kk s
  obtain ⟨t, hnext, hbyte, hothers, hframe⟩ := setV_advance_writes_one x (Config.rnd s.draws &&& kk)
    { s with draws := s.draws + 1 } (· = Config.rnd s.draws &&& kk) rfl
  refine ⟨t, Config.rnd s.draws, hnext, rfl, hbyte, ?_, hothers, hframe⟩
  intro b _ hclear
  rw [hbyte, BitVec.getLsbD_and, hclear, Bool.and_false]

end Sys2Proof.Machine
end

section
/-! PROOFS. What every instruction changes and leaves: the items it writes (10_state.md section 1), `PC` (R15) and the
flag (R12). -/

namespace Sys2Proof.Machine

/-! ### How an instruction ends (60_exceptions.md R126) -/

/-- An instruction keeps the latch, or it latches a fault and changes nothing else. -/
theorem exec_fault_cases {i : Instr} {s t : State} (h : exec i s = .next t) :
    t.fault = s.fault ∨ ∃ c w, c ≠ .noFault ∧ t = s.latchFault c w := by
  cases i with
  | ret =>
    obtain ⟨live, rfl⟩ | ⟨-, rfl⟩ := execRet_cases s t h
    · exact .inl rfl
    · exact .inr ⟨.stackUnderflow, 0, nofun, rfl⟩
  | call nnn =>
    obtain ⟨room, rfl⟩ | ⟨-, rfl⟩ := execCall_cases nnn s t h
    · exact .inl rfl
    · exact .inr ⟨.stackOverflow, 16, nofun, rfl⟩
  | drw | ldBVx | storeRegs | loadRegs =>
    obtain ⟨-, rfl⟩ | ⟨-, -, rfl⟩ := checkData_cases _ s _ t h
    · exact .inl rfl
    · exact .inr ⟨.dataOutOfRange, s.i, nofun, rfl⟩
  | skp x =>
    obtain ⟨k, -, rfl⟩ | ⟨-, rfl⟩ := execSkp_cases x s t h
    · exact .inl (skipIf_fault s _)
    · exact .inr ⟨.keyIndexOutOfRange, s.v[x].setWidth 16, nofun, rfl⟩
  | sknp x =>
    obtain ⟨k, -, rfl⟩ | ⟨-, rfl⟩ := execSknp_cases x s t h
    · exact .inl (skipIf_fault s _)
    · exact .inr ⟨.keyIndexOutOfRange, s.v[x].setWidth 16, nofun, rfl⟩
  | ldVxK x => exact .inl (execLdVxK_fault h)
  | seImm | sneImm | seReg | sneReg =>
    cases h
    exact .inl (skipIf_fault s _)
  | _ =>
    cases h
    exact .inl rfl

section Unfaulted

/-! A check whose next state has no fault latched was passed. -/

variable {s t : State} (ht : t.unfaulted)
include ht

theorem checkData_of_unfaulted {count : Nat} {after : State} (h : checkData count s after = .next t) : t = after := by
  obtain ⟨-, rfl⟩ | ⟨-, -, rfl⟩ := checkData_cases count s after t h
  · rfl
  · cases ht

theorem checkKey_of_unfaulted {x : Reg} {after : Fin 16 → State} (h : checkKey x s after = .next t) :
    ∃ k : Fin 16, s.v[x].toNat = k.val ∧ t = after k := by
  obtain hkey | ⟨-, rfl⟩ := checkKey_cases x s after t h
  · exact hkey
  · cases ht

theorem execRet_of_unfaulted (h : execRet s = .next t) : ∃ live : 0 < s.sp.val, t = (s.popPc live).advance := by
  obtain hlive | ⟨-, rfl⟩ := execRet_cases s t h
  · exact hlive
  · cases ht

theorem execCall_of_unfaulted {nnn : BitVec 12} (h : execCall nnn s = .next t) :
    ∃ room : s.sp.val < 16, t = (s.pushPc room).jumpTo (zext12 nnn) := by
  obtain hroom | ⟨-, rfl⟩ := execCall_cases nnn s t h
  · exact hroom
  · cases ht

end Unfaulted

/-! ### The items that an instruction writes (R10) -/

/-- Settles O51: by the outcomes of each instruction, none of which writes an item but those of its row. -/
theorem eachItemHasOnlyItsWriters : Obligations.EachItemHasOnlyItsWriters := by
  intro i s t h
  cases i with
  | ret => obtain ⟨_, rfl⟩ | ⟨_, rfl⟩ := execRet_cases s t h <;> simp
  | call nnn => obtain ⟨_, rfl⟩ | ⟨_, rfl⟩ := execCall_cases nnn s t h <;> simp
  | drw | ldBVx | storeRegs | loadRegs => obtain ⟨_, rfl⟩ | ⟨_, _, rfl⟩ := checkData_cases _ s _ t h <;> simp
  | skp x => obtain ⟨_, _, rfl⟩ | ⟨_, rfl⟩ := execSkp_cases x s t h <;> simp
  | sknp x => obtain ⟨_, _, rfl⟩ | ⟨_, rfl⟩ := execSknp_cases x s t h <;> simp
  | ldVxK x =>
    obtain ⟨k, hk, rfl⟩ | ⟨_, rfl⟩ := execLdVxK_cases x s t h
    · have hdown : ∃ k : Fin 16, s.keys[k] = true := ⟨k, leastKey_pressed s.keys k hk⟩
      simpa using hdown
    · simp
  | _ => cases h; simp

/-! ### The program counter (R15) -/

theorem execLdVxK_pc {x : Reg} {s t : State} (h : execLdVxK x s = .next t) :
    t.pc = if ∃ k : Fin 16, s.keys[k] = true then s.pc + 2 else s.pc := by
  obtain ⟨k, hk, rfl⟩ | ⟨hnone, rfl⟩ := execLdVxK_cases x s t h
  · rw [if_pos ⟨k, leastKey_pressed s.keys k hk⟩]
    rfl
  · rw [if_neg]
    rintro ⟨k, hk⟩
    rw [not_pressed_of_leastKey_eq_none t.keys hnone k] at hk
    cases hk

/-- Settles O23: an instruction that faults changes the latch alone; one that does not has passed its check, and the
state after the check has the table's `PC`. -/
theorem pcChangesAsTheTableSays : Obligations.PcChangesAsTheTableSays := by
  intro i s t hs h
  refine ⟨fun hfaulted => ?_, fun ht => ?_⟩
  · obtain hkept | ⟨c, w, -, rfl⟩ := exec_fault_cases h
    · exact absurd ((congrArg FaultLatch.cause hkept).trans hs) hfaulted
    · rfl
  · cases i with
    | call nnn =>
      obtain ⟨room, rfl⟩ := execCall_of_unfaulted ht h
      rfl
    | ret =>
      obtain ⟨live, rfl⟩ := execRet_of_unfaulted ht h
      exact ⟨⟨s.sp.val - 1, by omega⟩, by simp only; omega, rfl⟩
    | skp x =>
      obtain ⟨k, hk, rfl⟩ := checkKey_of_unfaulted (after := fun k => s.skipIf s.keys[k]) ht h
      exact ⟨k, hk.symm, skipIf_pc s _⟩
    | sknp x =>
      obtain ⟨k, hk, rfl⟩ := checkKey_of_unfaulted (after := fun k => s.skipIf (!s.keys[k])) ht h
      exact ⟨k, hk.symm, (skipIf_pc s _).trans (by cases s.keys[k] <;> rfl)⟩
    | ldVxK x => exact execLdVxK_pc h
    | drw | ldBVx | storeRegs | loadRegs =>
      obtain rfl := checkData_of_unfaulted ht h
      rfl
    | seImm | sneImm | seReg | sneReg =>
      cases h
      simp
    | _ =>
      cases h
      rfl

/-! ### The flag (R12) -/

theorem flagByte_eq_zero_or_one (b : Bool) : flagByte b = 0 ∨ flagByte b = 1 := by
  cases b
  · exact .inl rfl
  · exact .inr rfl

theorem lowBitFlag_eq_zero_or_one (a : Byte) : lowBitFlag a = 0 ∨ lowBitFlag a = 1 := by
  obtain hbit | hbit := Nat.mod_two_eq_zero_or_one a.toNat
  · exact .inl (BitVec.eq_of_toNat_eq ((lowBitFlag_toNat a).trans hbit))
  · exact .inr (BitVec.eq_of_toNat_eq ((lowBitFlag_toNat a).trans hbit))

/-- The five that write the flag first leave it in `VF` unless their result overwrites it. -/
theorem flagThen_leaves_flag {r : Result} {s t : State} {f : Byte} {x : Reg} {result : State → Byte}
    (hexec : r = .next (s.flagThen f x result)) (h : r = .next t) (hf : f = 0 ∨ f = 1) (hx : x ≠ 15) :
    t.v[(15 : Fin 16)] = 0 ∨ t.v[(15 : Fin 16)] = 1 := by
  obtain rfl : s.flagThen f x result = t := Host.Outcome.next.inj (hexec.symm.trans h)
  rwa [flagThen_v_flag s f hx]

theorem setV_v_flag_of_ne {s : State} {x : Reg} (b : Byte) (hx : x ≠ 15) :
    (s.setV x b).v[(15 : Fin 16)] = s.v[(15 : Fin 16)] :=
  set_getElem_of_ne s.v x 15 b hx.symm

/-- Settles O32: the five that write the flag first and the draw leave a flag byte; the others with a destination write
no register else; that the rest write none is O51. -/
theorem flagIsWrittenByTheSixAlone : Obligations.FlagIsWrittenByTheSixAlone := by
  intro i s t hs h
  obtain ⟨-, hv, -⟩ := eachItemHasOnlyItsWriters i s t h
  cases i with
  | addReg x y => exact flagThen_leaves_flag (execAddReg_eq x y s) h (flagByte_eq_zero_or_one _)
  | subReg x y => exact flagThen_leaves_flag (execSubReg_eq x y s) h (flagByte_eq_zero_or_one _)
  | subnReg x y => exact flagThen_leaves_flag (execSubnReg_eq x y s) h (flagByte_eq_zero_or_one _)
  | shr x y => exact flagThen_leaves_flag (execShr_eq x y s) h (lowBitFlag_eq_zero_or_one s.v[x])
  | shl x y => exact flagThen_leaves_flag (execShl_eq x y s) h (lowBitFlag_eq_zero_or_one (s.v[x] >>> 7))
  | drw x y n =>
    intro ht
    obtain rfl := checkData_of_unfaulted ht h
    exact (afterDrw_v_flag x y n s).symm ▸ flagByte_eq_zero_or_one _
  | ldVxK x =>
    intro hx
    obtain ⟨k, -, rfl⟩ | ⟨-, rfl⟩ := execLdVxK_cases x s t h
    · exact setV_v_flag_of_ne _ hx
    · rfl
  | loadRegs x =>
    intro hx
    obtain ⟨-, rfl⟩ | ⟨-, -, rfl⟩ := checkData_cases _ s _ t h
    · have hne : x.val ≠ 15 := Fin.val_ne_of_ne hx
      have habove : ¬ 15 < x.val + 1 := by omega
      exact (loadBlock_getElem s.mem s.i.toNat (x.val + 1) s.v 15).trans (if_neg habove)
    · rfl
  | ldImm | addImm | ldReg | orReg | andReg | xorReg | rnd | ldVxDt =>
    cases h
    exact fun hx => setV_v_flag_of_ne _ hx
  | _ => exact not_not.mp hv

end Sys2Proof.Machine
end

section
/-! PROOFS. What instructions cannot observe: `draw_flag` and `ST`, and, but for their readers, the keys and `DT`
(10_state.md section 4). -/

namespace Sys2Proof.Machine

/-! ### Two runs of one instruction -/

section Follows

/-! An instruction with two outcomes, run from two states that agree on what decides, has the same outcome in both. So a
relation that holds of the states after it, and of the two with one fault latched in both, holds at the end. -/

variable {s s' t : State} {R : State → State → Prop} (hlatch : ∀ c w, R (s.latchFault c w) (s'.latchFault c w))
include hlatch

theorem checkData_follows {count : Nat} {after after' : State} (h : checkData count s after = .next t) (hi : s'.i = s.i)
    (hafter : R after after') : ∃ u, checkData count s' after' = .next u ∧ R t u := by
  obtain ⟨hfits, rfl⟩ | ⟨hcount, hbeyond, rfl⟩ := checkData_cases count s after t h
  · exact ⟨_, checkData_of_fits count s' after' (hi ▸ hfits), hafter⟩
  · have hinfo := congrArg (fun w => raiseFault .dataOutOfRange w s') hi
    exact ⟨_, (checkData_of_not_fits count s' after' hcount (hi ▸ hbeyond)).trans hinfo, hlatch _ _⟩

theorem execRet_follows (h : execRet s = .next t) (hsp : s'.sp = s.sp)
    (hpop : ∀ live live', R (s.popPc live).advance (s'.popPc live').advance) : ∃ u, execRet s' = .next u ∧ R t u := by
  obtain ⟨live, rfl⟩ | ⟨hempty, rfl⟩ := execRet_cases s t h
  · exact ⟨_, execRet_of_live s' (hsp ▸ live), hpop live _⟩
  · exact ⟨_, execRet_of_empty s' (hsp ▸ hempty), hlatch _ _⟩

theorem execCall_follows {nnn : BitVec 12} (h : execCall nnn s = .next t) (hsp : s'.sp = s.sp)
    (hpush : ∀ room room', R ((s.pushPc room).jumpTo (zext12 nnn)) ((s'.pushPc room').jumpTo (zext12 nnn))) :
    ∃ u, execCall nnn s' = .next u ∧ R t u := by
  obtain ⟨room, rfl⟩ | ⟨hfull, rfl⟩ := execCall_cases nnn s t h
  · exact ⟨_, execCall_of_room nnn s' (hsp ▸ room), hpush room _⟩
  · exact ⟨_, execCall_of_full nnn s' (hsp ▸ hfull), hlatch _ _⟩

theorem checkKey_follows {x : Reg} {after after' : Fin 16 → State} (h : checkKey x s after = .next t) (hv : s'.v = s.v)
    (hafter : ∀ k, R (after k) (after' k)) : ∃ u, checkKey x s' after' = .next u ∧ R t u := by
  obtain ⟨k, hk, rfl⟩ | ⟨hnone, rfl⟩ := checkKey_cases x s after t h
  · exact ⟨_, checkKey_of_key x s' after' k (hv ▸ hk), hafter k⟩
  · have hinfo := congrArg (fun v : Vector Byte 16 => raiseFault .keyIndexOutOfRange (v[x].setWidth 16) s') hv
    exact ⟨_, (checkKey_of_no_key x s' after' (hv ▸ hnone)).trans hinfo, hlatch _ _⟩

theorem execSkp_follows {x : Reg} (h : execSkp x s = .next t) (hv : s'.v = s.v) (hkeys : s'.keys = s.keys)
    (hskip : ∀ c, R (s.skipIf c) (s'.skipIf c)) : ∃ u, execSkp x s' = .next u ∧ R t u :=
  checkKey_follows hlatch (after := fun k => s.skipIf s.keys[k]) (after' := fun k => s'.skipIf s'.keys[k]) h hv
    fun k => by rw [hkeys]; exact hskip s.keys[k]

theorem execSknp_follows {x : Reg} (h : execSknp x s = .next t) (hv : s'.v = s.v) (hkeys : s'.keys = s.keys)
    (hskip : ∀ c, R (s.skipIf c) (s'.skipIf c)) : ∃ u, execSknp x s' = .next u ∧ R t u :=
  checkKey_follows hlatch (after := fun k => s.skipIf (!s.keys[k])) (after' := fun k => s'.skipIf (!s'.keys[k])) h hv
    fun k => by rw [hkeys]; exact hskip (!s.keys[k])

omit hlatch in
theorem execLdVxK_follows {x : Reg} (h : execLdVxK x s = .next t) (hkeys : s'.keys = s.keys) (hstall : R s s')
    (hwrite : ∀ b, R (s.setV x b).advance (s'.setV x b).advance) : ∃ u, execLdVxK x s' = .next u ∧ R t u := by
  obtain ⟨k, hk, rfl⟩ | ⟨hnone, rfl⟩ := execLdVxK_cases x s t h
  · exact ⟨_, execLdVxK_of_least x s' k (hkeys ▸ hk), hwrite _⟩
  · exact ⟨_, execLdVxK_of_none x s' (hkeys ▸ hnone), hstall⟩

end Follows

/-! ### One run against another, for each kind of item -/

/-- The second state is the first but for `draw_flag` and `ST`. -/
def SameButFlagAndSound (t u : State) : Prop := { u with drawFlag := t.drawFlag, st := t.st } = t

/-- The second state is the first but for `DT`. -/
def SameButDelay (t u : State) : Prop := { u with dt := t.dt } = t

/-- The second state is the first with other keys. -/
def SameWithKeys (keys : Vector Bool 16) (t u : State) : Prop := u = { t with keys := keys }

theorem skipIf_sameButFlagAndSound (c : Bool) (s : State) (flag : Bool) (sound : Byte) :
    SameButFlagAndSound (s.skipIf c) ({ s with drawFlag := flag, st := sound }.skipIf c) := by
  cases c <;> rfl

theorem skipIf_sameButDelay (c : Bool) (s : State) (delay : Byte) :
    SameButDelay (s.skipIf c) ({ s with dt := delay }.skipIf c) := by
  cases c <;> rfl

theorem skipIf_sameWithKeys (c : Bool) (s : State) (keys : Vector Bool 16) :
    SameWithKeys keys (s.skipIf c) ({ s with keys := keys }.skipIf c) := by
  cases c <;> rfl

theorem exec_sameButFlagAndSound {i : Instr} {s t : State} (flag : Bool) (sound : Byte) (h : exec i s = .next t) :
    ∃ u, exec i { s with drawFlag := flag, st := sound } = .next u ∧ SameButFlagAndSound t u := by
  have hlatch : ∀ c w,
      SameButFlagAndSound (s.latchFault c w) ({ s with drawFlag := flag, st := sound }.latchFault c w) := fun _ _ => rfl
  have hskip := fun c => skipIf_sameButFlagAndSound c s flag sound
  cases i with
  | ret => exact execRet_follows hlatch h rfl fun _ _ => rfl
  | call nnn => exact execCall_follows hlatch h rfl fun _ _ => rfl
  | drw | ldBVx | storeRegs | loadRegs => exact checkData_follows hlatch h rfl rfl
  | skp x => exact execSkp_follows hlatch h rfl rfl hskip
  | sknp x => exact execSknp_follows hlatch h rfl rfl hskip
  | ldVxK x => exact execLdVxK_follows h rfl rfl fun _ => rfl
  | seImm | sneImm | seReg | sneReg =>
    cases h
    exact ⟨_, rfl, hskip _⟩
  | _ =>
    cases h
    exact ⟨_, rfl, rfl⟩

/-- Settles O52: the meanings write `draw_flag` and `ST` and read neither. -/
theorem programsCannotObserveDrawFlagOrSound : Obligations.ProgramsCannotObserveDrawFlagOrSound := by
  intro i s t flag sound h
  exact exec_sameButFlagAndSound flag sound h

theorem exec_sameWithKeys {i : Instr} {s t : State} (keys : Vector Bool 16)
    (hreader : ∀ x, i ≠ .skp x ∧ i ≠ .sknp x ∧ i ≠ .ldVxK x) (h : exec i s = .next t) :
    ∃ u, exec i { s with keys := keys } = .next u ∧ SameWithKeys keys t u := by
  have hlatch : ∀ c w, SameWithKeys keys (s.latchFault c w) ({ s with keys := keys }.latchFault c w) := fun _ _ => rfl
  have hskip := fun c => skipIf_sameWithKeys c s keys
  cases i with
  | ret => exact execRet_follows hlatch h rfl fun _ _ => rfl
  | call nnn => exact execCall_follows hlatch h rfl fun _ _ => rfl
  | drw | ldBVx | storeRegs | loadRegs => exact checkData_follows hlatch h rfl rfl
  | skp x => exact absurd rfl (hreader x).1
  | sknp x => exact absurd rfl (hreader x).2.1
  | ldVxK x => exact absurd rfl (hreader x).2.2
  | seImm | sneImm | seReg | sneReg =>
    cases h
    exact ⟨_, rfl, hskip _⟩
  | _ =>
    cases h
    exact ⟨_, rfl, rfl⟩

theorem exec_sameButDelay {i : Instr} {s t : State} (delay : Byte) (hreader : ∀ x, i ≠ .ldVxDt x)
    (h : exec i s = .next t) : ∃ u, exec i { s with dt := delay } = .next u ∧ SameButDelay t u := by
  have hlatch : ∀ c w, SameButDelay (s.latchFault c w) ({ s with dt := delay }.latchFault c w) := fun _ _ => rfl
  have hskip := fun c => skipIf_sameButDelay c s delay
  cases i with
  | ret => exact execRet_follows hlatch h rfl fun _ _ => rfl
  | call nnn => exact execCall_follows hlatch h rfl fun _ _ => rfl
  | drw | ldBVx | storeRegs | loadRegs => exact checkData_follows hlatch h rfl rfl
  | skp x => exact execSkp_follows hlatch h rfl rfl hskip
  | sknp x => exact execSknp_follows hlatch h rfl rfl hskip
  | ldVxK x => exact execLdVxK_follows h rfl rfl fun _ => rfl
  | ldVxDt x => exact absurd rfl (hreader x)
  | seImm | sneImm | seReg | sneReg =>
    cases h
    exact ⟨_, rfl, hskip _⟩
  | _ =>
    cases h
    exact ⟨_, rfl, rfl⟩

/-- Settles O53: the keys' clause and `DT`'s, each over the instructions that do not read the item. -/
theorem keysAndDelayReachOnlyTheirReaders : Obligations.KeysAndDelayReachOnlyTheirReaders := by
  intro i s t keys delay h
  refine ⟨fun hreader => ?_, fun hreader => exec_sameButDelay delay hreader h⟩
  obtain ⟨u, hexec, rfl⟩ := exec_sameWithKeys keys hreader h
  exact hexec

end Sys2Proof.Machine
end

section
/-! PROOFS. The invariant of reachable states (10_state.md R22), and what holds over runs of events (00_scope.md R1,
R3). -/

namespace Sys2Proof.Machine

/-! ### The reset (R23) -/

/-- Settles O55: memory lists nothing, no stack entry is live, and no fault is latched. -/
theorem resetMeetsTheInvariant : Obligations.ResetMeetsTheInvariant := by
  refine ⟨reset_mem_wf, by decide, ?_, ?_⟩
  · intro j hlive
    exact absurd hlive (Nat.not_lt_zero j.val)
  · exact ⟨fun _ => ⟨rfl, rfl⟩, fun hfaulted => absurd rfl hfaulted⟩

theorem blank_font (j : Nat) : Memory.blank (0x050 + j) = Config.fontset.getD j 0 := by
  rw [Memory.blank, fontBase_eq, if_pos (Nat.le_add_right _ _), Nat.add_sub_cancel_left]

theorem fontset_length : Config.fontset.length = 80 := rfl

theorem blank_outside_font (a : Nat) (ha : a < 0x050 ∨ 0x09F < a) : Memory.blank a = 0 := by
  rw [Memory.blank, fontBase_eq]
  split
  · rw [List.getD_eq_default]
    rw [fontset_length]
    omega
  · rfl

/-- Settles O1: memory after the reset lists nothing, so it reads as unlisted; every other item is written out in
`State.reset`. -/
theorem resetGivesTheStatedValues : Obligations.ResetGivesTheStatedValues := by
  intro s
  refine ⟨resetEvent s, rfl, rfl, fun j _ => blank_font j, fun a _ ha => blank_outside_font a ha, ?_, rfl, rfl, rfl, ?_,
    rfl, rfl, ?_, blank_pixel, rfl, rfl⟩
  · simp [State.reset]
  · simp [State.reset]
  · simp [State.reset]

/-! ### The invariant over a step -/

section Step

variable {i : Instr} {s t : State}

/-- The two stores are runs of byte writes, and nothing else writes memory. -/
theorem exec_mem_wf (h : exec i s = .next t) (hwf : s.mem.wf) : t.mem.wf := by
  obtain ⟨hmem, -⟩ := eachItemHasOnlyItsWriters i s t h
  by_cases hkept : t.mem = s.mem
  · rwa [hkept]
  · obtain ⟨x, rfl | rfl⟩ := hmem hkept
    all_goals
      obtain ⟨-, rfl⟩ | ⟨-, -, rfl⟩ := checkData_cases _ s _ t h
      · exact Memory.writeBytes_wf _ _ _ hwf
      · exact hwf

/-- What is pushed is the address that the call was fetched at. -/
theorem exec_stackOk (h : exec i s = .next t) (hpc : s.pc.toNat ≤ 0xFFE) (hstack : s.stackOk) : t.stackOk := by
  obtain ⟨-, -, -, -, hsp, hentries, -⟩ := eachItemHasOnlyItsWriters i s t h
  cases i with
  | ret =>
    obtain ⟨live, rfl⟩ | ⟨-, rfl⟩ := execRet_cases s t h
    · intro j hj
      rw [advance_sp, popPc_sp_val] at hj
      exact hstack j (by omega)
    · exact hstack
  | call nnn =>
    obtain ⟨room, rfl⟩ | ⟨-, rfl⟩ := execCall_cases nnn s t h
    · intro j hj
      obtain ⟨top, htop⟩ : ∃ top : Fin 16, s.sp.val = top.val := ⟨⟨s.sp.val, room⟩, rfl⟩
      by_cases hnew : j = top
      · rw [jumpTo_stack, hnew, pushPc_stack_at_sp s room top htop]
        exact hpc
      · have hne : j.val ≠ top.val := fun hval => hnew (Fin.ext hval)
        rw [jumpTo_sp, pushPc_sp_val] at hj
        rw [jumpTo_stack, pushPc_stack_of_ne s room top htop j hnew]
        exact hstack j (by omega)
    · exact hstack
  | _ =>
    have hsp' : t.sp = s.sp := by simpa using hsp
    have hentries' : t.stack = s.stack := by simpa using hentries
    rw [State.stackOk, hsp', hentries']
    exact hstack

/-- Only a fault writes the latch, and it records the `PC` that it leaves unchanged. -/
theorem exec_latchOk (h : exec i s = .next t) (hs : s.unfaulted) (hlatch : s.latchOk) : t.latchOk := by
  obtain hkept | ⟨c, w, hc, rfl⟩ := exec_fault_cases h
  · rw [State.latchOk, hkept]
    exact ⟨hlatch.1, fun hfaulted => absurd hs hfaulted⟩
  · exact ⟨fun hnone => absurd hnone hc, fun _ => rfl⟩

theorem add_toNat_le {w c : Word} {bound : Nat} (hw : w.toNat ≤ bound) : (w + c).toNat ≤ bound + c.toNat := by
  rw [BitVec.toNat_add]
  exact (Nat.mod_le _ _).trans (Nat.add_le_add_right hw _)

/-- The table of R15 leads at most 4 past the last address a fetch succeeds at, or to a sum of R68, which is larger. -/
theorem exec_pc_le (h : exec i s = .next t) (hs : s.unfaulted) (hpc : s.pc.toNat ≤ 0xFFE) (hstack : s.stackOk) :
    t.pc.toNat ≤ 0x10FE := by
  have hnext : (s.pc + 2).toNat ≤ 0x10FE := (add_toNat_le (c := 2) hpc).trans (by decide)
  have hskip : (s.pc + 4).toNat ≤ 0x10FE := (add_toNat_le (c := 4) hpc).trans (by decide)
  have hkeep : s.pc.toNat ≤ 0x10FE := hpc.trans (by decide)
  have hadvance : ∀ (p : Prop) [Decidable p], t.pc = (if p then s.pc + 4 else s.pc + 2) → t.pc.toNat ≤ 0x10FE := by
    intro p _ ht
    rw [ht]
    split <;> assumption
  have htarget : ∀ nnn : BitVec 12, (zext12 nnn).toNat ≤ 0x10FE := by
    intro nnn
    rw [zext12_toNat]
    omega
  obtain ⟨hfaulted, htable⟩ := pcChangesAsTheTableSays i s t hs h
  by_cases ht : t.unfaulted
  case neg => rwa [hfaulted ht]
  replace htable := htable ht
  cases i with
  | jp nnn | call nnn => exact htable ▸ htarget nnn
  | jpV0 nnn =>
    have hnnn := nnn.isLt
    have hv := s.v[(0 : Fin 16)].isLt
    rw [show t.pc = zext12 nnn + zext8 s.v[(0 : Fin 16)] from htable, zext12_add_zext8_toNat]
    omega
  | ret =>
    obtain ⟨j, hj, htable⟩ := htable
    rw [htable]
    exact (add_toNat_le (c := 2) (hstack j (by omega))).trans (by decide)
  | seImm | sneImm | seReg | sneReg => exact hadvance _ htable
  | skp x =>
    obtain ⟨k, -, htable⟩ := htable
    exact hadvance _ htable
  | sknp x =>
    obtain ⟨k, -, htable⟩ := htable
    rw [htable]
    split <;> assumption
  | ldVxK x =>
    rw [show t.pc = _ from htable]
    split <;> assumption
  | _ =>
    rw [show t.pc = _ from htable]
    exact hnext

end Step

/-- Settles O56: a step runs an instruction fetched at 0xFFE or below, which keeps each part, or it latches the fetch
fault. -/
theorem everyStepKeepsTheInvariant : Obligations.EveryStepKeepsTheInvariant := by
  rintro s t ⟨hwf, hpc, hstack, hlatch⟩ hstep
  obtain ⟨hs, ⟨w, -, hfetch, hexec⟩ | ⟨-, rfl⟩⟩ := step_cases s t hstep
  · exact ⟨exec_mem_wf hexec hwf, exec_pc_le hexec hs hfetch hstack, exec_stackOk hexec hfetch hstack,
      exec_latchOk hexec hs hlatch⟩
  · exact ⟨hwf, hpc, hstack, nofun, fun _ => rfl⟩

/-! ### The invariant over events and runs -/

/-- Settles O58: a step is O56, the reset is O55, a load keeps memory canonical, and the other events write none of the
invariant's items. -/
theorem everyEventKeepsTheInvariant : Obligations.EveryEventKeepsTheInvariant := by
  intro e s t o hinv happly
  obtain ⟨-, hstep⟩ | ⟨-, rfl⟩ | ⟨bytes, -, rfl⟩ | ⟨-, rfl⟩ | ⟨k, b, -, rfl⟩ | ⟨-, rfl⟩ | ⟨-, rfl⟩ :=
    apply_cases e s t o happly
  case inl => exact everyStepKeepsTheInvariant s t hinv hstep
  case inr.inl => exact resetMeetsTheInvariant
  case inr.inr.inl =>
    obtain ⟨hwf, hrest⟩ := hinv
    rw [loadProgram_frame]
    exact ⟨loadProgram_mem_wf bytes s hwf, hrest⟩
  all_goals exact hinv

theorem faultCause_code_le (c : FaultCause) : c.code.toNat ≤ 5 := by
  cases c <;> decide

/-- Settles O57: the run keeps the invariant; the other ranges are those of the items' types. -/
theorem reachableStatesStayInRange : Obligations.ReachableStatesStayInRange := by
  intro es s hrun
  obtain ⟨-, hpc, hstack, -⟩ : s.Inv :=
    runEvents_induction State.Inv everyEventKeepsTheInvariant es State.reset s resetMeetsTheInvariant hrun
  exact ⟨fun x => Nat.le_of_lt_succ s.v[x].isLt, Nat.le_of_lt_succ s.dt.isLt, Nat.le_of_lt_succ s.st.isLt,
    Nat.le_of_lt_succ s.i.isLt, hpc, Nat.le_of_lt_succ s.sp.isLt, hstack, faultCause_code_le s.fault.cause⟩

/-! ### A latched fault (60_exceptions.md R127, R128) -/

theorem step_of_faulted {s : State} (hs : ¬ s.unfaulted) : step s = .fault .stepNotEnabled := by
  rw [step, if_neg hs]

/-- Settles O11: `step` alone looks at the latch, and of the other events the reset alone writes it. -/
theorem faultDisablesStepAlone : Obligations.FaultDisablesStepAlone := by
  intro s hs
  have hstep := step_of_faulted hs
  refine ⟨hstep, by rw [Event.apply, hstep], ?_⟩
  intro e he
  cases e with
  | step => exact absurd rfl he
  | reset => exact ⟨_, _, rfl, fun hne => absurd rfl hne, fun _ => rfl⟩
  | loadProgram bytes =>
    refine ⟨_, _, rfl, fun _ => ?_, nofun⟩
    rw [loadProgram_frame]
  | tick | setKey | readDisplay | drawAck | readST => exact ⟨_, _, rfl, fun _ => rfl, nofun⟩

/-- What no agent outside the engine writes. -/
def State.EngineItemsKept (s t : State) : Prop :=
  t.fault = s.fault ∧ t.v = s.v ∧ t.i = s.i ∧ t.pc = s.pc ∧ t.sp = s.sp ∧ t.stack = s.stack ∧ t.display = s.display

theorem apply_keeps_engineItems {e : Event} {s t : State} {o : Observation} (hs : ¬ s.unfaulted) (he : e ≠ .reset)
    (happly : e.apply s = some (t, o)) : s.EngineItemsKept t := by
  obtain ⟨-, hstep⟩ | ⟨hreset, -⟩ | ⟨bytes, -, rfl⟩ | ⟨-, rfl⟩ | ⟨k, b, -, rfl⟩ | ⟨-, rfl⟩ | ⟨-, rfl⟩ :=
    apply_cases e s t o happly
  case inl => exact absurd (step_cases s t hstep).1 hs
  case inr.inl => exact absurd hreset he
  case inr.inr.inl =>
    rw [loadProgram_frame]
    exact ⟨rfl, rfl, rfl, rfl, rfl, rfl, rfl⟩
  all_goals exact ⟨rfl, rfl, rfl, rfl, rfl, rfl, rfl⟩

theorem runEvents_cons_eq_some {e : Event} {es : List Event} {s u : State} (h : runEvents (e :: es) s = some u) :
    ∃ t o, e.apply s = some (t, o) ∧ runEvents es t = some u := by
  rw [runEvents] at h
  split at h
  · exact ⟨_, _, ‹_›, h⟩
  · cases h

/-- Settles O12: each event of the run keeps the items, the latch among them, so the next is again no step. -/
theorem latchedFaultIsStickyOverRuns : Obligations.LatchedFaultIsStickyOverRuns := by
  intro es
  induction es with
  | nil =>
    intro s t _ _ hrun
    cases hrun
    exact ⟨rfl, rfl, rfl, rfl, rfl, rfl, rfl⟩
  | cons e es ih =>
    intro s u hs hes hrun
    obtain ⟨he, hes⟩ := List.ne_and_not_mem_of_not_mem_cons hes
    obtain ⟨t, o, happly, hrun⟩ := runEvents_cons_eq_some hrun
    obtain ⟨hfault, hv, hi, hpc, hsp, hstack, hdisplay⟩ := apply_keeps_engineItems hs he.symm happly
    have hrest := ih t u (by rwa [State.unfaulted, hfault]) hes hrun
    rwa [hfault, hv, hi, hpc, hsp, hstack, hdisplay] at hrest

/-! ### A step among the events -/

theorem step_eq_next_of_apply {s t : State} {o : Observation} (h : Event.step.apply s = some (t, o)) :
    step s = .next t := by
  simpa using apply_cases .step s t o h

theorem exec_of_step_eq_next {s t : State} {w : Word} (hw : fetchWord s = some w) (h : step s = .next t) :
    exec (decodeWord w) s = .next t := by
  obtain ⟨hs, -⟩ := step_cases s t h
  rwa [step_of_fetchWord_eq_some hs hw] at h

/-! ### The draws of a run (41_alu.md R87) -/

theorem step_draws_le {s t : State} (h : step s = .next t) : s.draws ≤ t.draws := by
  obtain ⟨-, ⟨w, -, -, hexec⟩ | ⟨-, rfl⟩⟩ := step_cases s t h
  · obtain ⟨x, kk, hrnd⟩ | hkept := exec_draws_cases _ s t hexec
    · rw [hrnd] at hexec
      rw [exec_rnd_draws x kk s t hexec]
      exact Nat.le_succ s.draws
    · exact hkept.ge
  · exact le_rfl

theorem apply_draws_le {e : Event} {s t : State} {o : Observation} (happly : e.apply s = some (t, o)) :
    s.draws ≤ t.draws := by
  obtain ⟨-, hstep⟩ | ⟨-, rfl⟩ | ⟨bytes, -, rfl⟩ | ⟨-, rfl⟩ | ⟨k, b, -, rfl⟩ | ⟨-, rfl⟩ | ⟨-, rfl⟩ :=
    apply_cases e s t o happly
  case inl => exact step_draws_le hstep
  case inr.inr.inl => rw [loadProgram_frame]
  all_goals exact le_rfl

/-- Settles O59: the draw puts the counter above its number, and no event lowers it. -/
theorem noLaterDrawHasTheNumberOfAnEarlierOne : Obligations.NoLaterDrawHasTheNumberOfAnEarlierOne := by
  intro x kk s t u w o es hfetch hdecode hstep hrun
  have hdrawn : t.draws = s.draws + 1 := by
    have hexec := exec_of_step_eq_next hfetch (step_eq_next_of_apply hstep)
    rw [hdecode] at hexec
    exact exec_rnd_draws x kk s t hexec
  refine runEvents_induction (fun v => s.draws < v.draws) ?_ es t u (by omega) hrun
  intro e v v' o' hlt happly
  exact hlt.trans_le (apply_draws_le happly)

/-! ### The timers (44_keys_timers.md R122) -/

/-- No event but a step lets a timer rise. -/
theorem apply_timers_le {e : Event} {s t : State} {o : Observation} (he : e ≠ .step)
    (happly : e.apply s = some (t, o)) : t.dt.toNat ≤ s.dt.toNat ∧ t.st.toNat ≤ s.st.toNat := by
  obtain ⟨hstep, -⟩ | ⟨-, rfl⟩ | ⟨bytes, -, rfl⟩ | ⟨-, rfl⟩ | ⟨k, b, -, rfl⟩ | ⟨-, rfl⟩ | ⟨-, rfl⟩ :=
    apply_cases e s t o happly
  case inl => exact absurd hstep he
  case inr.inl => exact ⟨Nat.zero_le _, Nat.zero_le _⟩
  case inr.inr.inl =>
    rw [loadProgram_frame]
    exact ⟨le_rfl, le_rfl⟩
  case inr.inr.inr.inl =>
    rw [tick_dt, tick_st, countDown_toNat, countDown_toNat]
    exact ⟨Nat.sub_le _ _, Nat.sub_le _ _⟩
  all_goals exact ⟨le_rfl, le_rfl⟩

/-- Settles O48: of the events a step alone can raise a timer, and of the instructions only the two that write it. -/
theorem timersRiseOnlyByTheirLoads : Obligations.TimersRiseOnlyByTheirLoads := by
  intro e s t o happly
  by_cases he : e = .step
  · subst he
    obtain ⟨-, ⟨w, hw, -, hexec⟩ | ⟨-, rfl⟩⟩ := step_cases s t (step_eq_next_of_apply happly)
    · obtain ⟨-, -, -, -, -, -, hdt, hst, -⟩ := eachItemHasOnlyItsWriters _ s t hexec
      constructor
      · intro hrise
        obtain ⟨x, hx⟩ := hdt fun heq => hrise.ne (congrArg BitVec.toNat heq.symm)
        exact ⟨rfl, w, x, hw, hx⟩
      · intro hrise
        obtain ⟨x, hx⟩ := hst fun heq => hrise.ne (congrArg BitVec.toNat heq.symm)
        exact ⟨rfl, w, x, hw, hx⟩
    · exact ⟨fun hrise => absurd hrise (lt_irrefl _), fun hrise => absurd hrise (lt_irrefl _)⟩
  · obtain ⟨hdt, hst⟩ := apply_timers_le he happly
    exact ⟨fun hrise => absurd hrise hdt.not_gt, fun hrise => absurd hrise hst.not_gt⟩

theorem runEvents_ticks (k : Nat) (s : State) :
    ∃ t, runEvents (List.replicate k .tick) s = some t ∧ t.dt.toNat = s.dt.toNat - k := by
  induction k generalizing s with
  | zero => exact ⟨s, rfl, rfl⟩
  | succ k ih =>
    obtain ⟨t, hrun, hdt⟩ := ih (tick s)
    refine ⟨t, hrun, ?_⟩
    rw [hdt, tick_dt, countDown_toNat]
    omega

/-- Settles O47: each tick takes one from the delay timer, which stays at 0. -/
theorem delayTimerReadsTheTicksSinceItsLoad : Obligations.DelayTimerReadsTheTicksSinceItsLoad := by
  intro x y s k
  obtain ⟨u, hrun, hdt⟩ := runEvents_ticks k { s with dt := s.v[x], pc := s.pc + 2 }
  obtain ⟨⟨w, hread, hvalue, -⟩, -⟩ := timerInstructionsMoveTheTimers y u
  exact ⟨_, u, w, (timerInstructionsMoveTheTimers x s).2.1, hrun, hread, hvalue ▸ hdt⟩

end Sys2Proof.Machine
end

section
/-! PROOFS. Canonical memories are functions from address to byte (20_memory.md R38). -/

namespace Sys2Proof.Machine

theorem Memory.wf_tail {c : Host.Cell} {m : Memory} (h : Memory.wf (c :: m)) : Memory.wf m :=
  ⟨h.1.of_cons, fun d hd => h.2 d (List.mem_cons_of_mem c hd)⟩

/-- Below the cells of a canonical memory, and between its first and the rest, nothing is listed. -/
theorem Memory.read_tail_of_le {c : Host.Cell} {m : Memory} (h : Memory.wf (c :: m)) {a : Nat} (ha : a ≤ c.1) :
    m.read a = Memory.blank a := by
  refine Memory.read_of_unlisted m a fun d hd => ?_
  have hrising : c.1 < d.1 := List.rel_of_pairwise_cons h.1 hd
  omega

theorem Memory.read_of_lt_head {c : Host.Cell} {m : Memory} (h : Memory.wf (c :: m)) {a : Nat} (ha : a < c.1) :
    Memory.read (c :: m) a = Memory.blank a := by
  rw [Memory.read_cons, if_neg ha.ne', Memory.read_tail_of_le h ha.le]

/-- The first listed cell is read, and differs from what is unlisted. -/
theorem Memory.read_head_ne_blank {c : Host.Cell} {m : Memory} (h : Memory.wf (c :: m)) :
    Memory.read (c :: m) c.1 ≠ Memory.blank c.1 := by
  rw [Memory.read_cons, if_pos rfl]
  exact (h.2 c List.mem_cons_self).2

/-- A canonical memory that reads alike lists no cell before the first of the other. -/
theorem Memory.head_le_of_reads_alike {c d : Host.Cell} {m m' : Memory} (h : Memory.wf (c :: m))
    (h' : Memory.wf (d :: m')) (halike : ∀ a, Memory.read (c :: m) a = Memory.read (d :: m') a) : d.1 ≤ c.1 := by
  by_contra hlt
  exact Memory.read_head_ne_blank h ((halike c.1).trans (Memory.read_of_lt_head h' (by omega)))

/-- Settles O38: cell by cell. Neither list can begin before the other, so their first cells are one, and the rest read
alike. -/
theorem canonicalMemoriesThatReadAlikeAreEqual : Obligations.CanonicalMemoriesThatReadAlikeAreEqual := by
  intro m
  induction m with
  | nil =>
    intro m' _ h' halike
    cases m' with
    | nil => rfl
    | cons d m' => exact absurd (halike d.1).symm (Memory.read_head_ne_blank h')
  | cons c m ih =>
    intro m' h h' halike
    cases m' with
    | nil => exact absurd (halike c.1) (Memory.read_head_ne_blank h)
    | cons d m' =>
      have haddr : c.1 = d.1 :=
        Nat.le_antisymm (Memory.head_le_of_reads_alike h' h fun a => (halike a).symm)
          (Memory.head_le_of_reads_alike h h' halike)
      have hbyte : c.2 = d.2 := by simpa [haddr] using halike c.1
      have hhead : c = d := Prod.ext haddr hbyte
      subst hhead
      have htail : ∀ a, Memory.read m a = Memory.read m' a := by
        intro a
        by_cases ha : a = c.1
        · rw [Memory.read_tail_of_le h ha.le, Memory.read_tail_of_le h' ha.le]
        · simpa [Ne.symm ha] using halike a
      rw [ih m' (Memory.wf_tail h) (Memory.wf_tail h') htail]

end Sys2Proof.Machine
end

section
/-! PROOFS. Two forms of the rasterizer, and two draws of one sprite (43_display.md R107, R108). -/

namespace Sys2Proof.Machine

theorem display_ext {d d' : Display} (h : ∀ row col, d.pixel row col = d'.pixel row col) : d = d' := by
  refine Vector.ext fun r hr => BitVec.eq_of_getMsbD_eq fun c hc => ?_
  exact h ⟨r, hr⟩ ⟨c, hc⟩

/-- What toggled which pixels determines the display and the collision. -/
theorem Toggled.unique {lit : Fin 32 → Fin 64 → Prop} {t u u' : Raster} (h : Toggled lit t u) (h' : Toggled lit t u') :
    u = u' := by
  obtain ⟨hinside, houtside, hhit⟩ := h
  obtain ⟨hinside', houtside', hhit'⟩ := h'
  have hdisplay : u.display = u'.display := by
    refine display_ext fun row col => ?_
    by_cases hlit : lit row col
    · rw [hinside row col hlit, hinside' row col hlit]
    · rw [houtside row col hlit, houtside' row col hlit]
  have hsame : u.hit = u'.hit := Bool.eq_iff_iff.mpr (hhit.trans hhit'.symm)
  cases u
  cases u'
  exact congrArg₂ Raster.mk hdisplay hsame

/-! ### The row-word form (R108) -/

theorem topByte_getMsbD (byte : Byte) (b : Nat) : (byte.setWidth 64 <<< 56).getMsbD b = byte.getMsbD b := by
  rw [BitVec.getMsbD_shiftLeft, BitVec.getMsbD_setWidth, decide_eq_true (by omega), Bool.true_and,
    show b + 56 + 8 - 64 = b by omega]

/-- Column `col` of the rotated word holds the sprite bit as many columns to the right of `cx`, modulo 64. -/
theorem spriteMask_getMsbD (byte : Byte) (cx : Nat) (col : Fin 64) :
    (spriteMask byte cx).getMsbD col = byte.getMsbD ((64 + col.val - cx % 64) % 64) := by
  have hcol : col.val < 64 := col.isLt
  rw [spriteMask, BitVec.getMsbD_rotateRight, decide_eq_true hcol, Bool.true_and, Nat.mod_mod]
  split
  · rw [topByte_getMsbD]
  · rw [topByte_getMsbD, show (64 + col.val - cx % 64) % 64 = col.val - cx % 64 by omega]

/-- The rotated word has its ones at the columns that the sprite bits that are 1 reach (R105). -/
theorem spriteMask_getMsbD_iff (byte : Byte) (cx : Nat) (col : Fin 64) :
    (spriteMask byte cx).getMsbD col = true ↔ ∃ b < 8, byte.getMsbD b = true ∧ col = spriteCol cx b := by
  have hcol : col.val < 64 := col.isLt
  simp only [spriteMask_getMsbD, eq_spriteCol_iff]
  constructor
  · intro hbit
    exact ⟨_, BitVec.lt_of_getMsbD hbit, hbit, by omega⟩
  · rintro ⟨b, hb, hbit, hcol⟩
    rwa [show (64 + col.val - cx % 64) % 64 = b by omega]

theorem underRow_iff (cx cy r : Nat) (byte : Byte) (row : Fin 32) (col : Fin 64) :
    underRow cx cy r byte row col ↔ row = spriteRow cy r ∧ (spriteMask byte cx).getMsbD col = true := by
  rw [spriteMask_getMsbD_iff]
  constructor
  · rintro ⟨b, hb, hbit, hrow, hcol⟩
    exact ⟨hrow, b, hb, hbit, hcol⟩
  · rintro ⟨hrow, b, hb, hbit, hcol⟩
    exact ⟨b, hb, hbit, hrow, hcol⟩

theorem and_ne_zero_iff_getMsbD (a m : BitVec 64) :
    (a &&& m != 0) = true ↔ ∃ col : Fin 64, m.getMsbD col = true ∧ a.getMsbD col = true := by
  rw [bne_iff_ne]
  constructor
  · intro hne
    by_contra hnone
    refine hne (BitVec.eq_of_getMsbD_eq fun c hc => ?_)
    have hclear : (a.getMsbD c && m.getMsbD c) = false :=
      Bool.eq_false_iff.mpr fun hboth => hnone ⟨⟨c, hc⟩, (Bool.and_eq_true_iff.mp hboth).symm⟩
    rw [BitVec.getMsbD_and, hclear]
    exact BitVec.getMsbD_zero.symm
  · rintro ⟨col, hm, ha⟩ hzero
    have hbit : (a &&& m).getMsbD col = true := by rw [BitVec.getMsbD_and, ha, hm, Bool.and_true]
    rw [hzero] at hbit
    exact absurd (BitVec.getMsbD_zero.symm.trans hbit) Bool.false_ne_true

theorem drawRowWord_toggled (cx cy r : Nat) (byte : Byte) (t : Raster) :
    Toggled (underRow cx cy r byte) t (drawRowWord cx cy r byte t) where
  inside row col hlit := by
    obtain ⟨rfl, hbit⟩ := (underRow_iff cx cy r byte row col).mp hlit
    simp [drawRowWord, Display.pixel, hbit]
  outside row col hother := by
    rw [underRow_iff, not_and] at hother
    by_cases hrow : row = spriteRow cy r
    · subst hrow
      simp [drawRowWord, Display.pixel, hother rfl]
    · have hne : (spriteRow cy r).val ≠ row.val := fun h => hrow (Fin.ext h.symm)
      simp [drawRowWord, Display.pixel, Vector.getElem_set_ne _ _ hne]
  hit := by
    simp only [drawRowWord, Bool.or_eq_true, and_ne_zero_iff_getMsbD, underRow_iff, and_assoc, exists_and_left,
      exists_eq_left]
    rfl

/-- Settles O41: both forms toggle the pixels under the row's bits that are 1, and record the same collision. -/
theorem rowWordFormAgreesWithPerPixelForm : Obligations.RowWordFormAgreesWithPerPixelForm := by
  rintro cx cy r byte t m row rfl hrow
  obtain rfl : row = spriteRow cy r := (eq_spriteRow_iff cy r row).mpr hrow
  exact (drawRow_toggled cx cy r byte t).unique (drawRowWord_toggled cx cy r byte t)

/-! ### Two draws of one sprite (R107) -/

/-- Toggling one set twice restores the display. -/
theorem Toggled.twice {lit : Fin 32 → Fin 64 → Prop} {t u u' w : Raster} (h : Toggled lit t u) (h' : Toggled lit u' w)
    (hsame : u'.display = u.display) : w.display = t.display := by
  refine display_ext fun row col => ?_
  by_cases hlit : lit row col
  · rw [h'.inside row col hlit, hsame, h.inside row col hlit, Bool.not_not]
  · rw [h'.outside row col hlit, hsame, h.outside row col hlit]

/-- The pixels that a draw turned on. -/
theorem Toggled.turned_on_iff {lit : Fin 32 → Fin 64 → Prop} {t u : Raster} (h : Toggled lit t u) (row : Fin 32)
    (col : Fin 64) :
    lit row col ∧ u.display.pixel row col = true ↔
      t.display.pixel row col = false ∧ u.display.pixel row col = true := by
  by_cases hlit : lit row col
  · simp [hlit, h.inside row col hlit]
  · simp [hlit, h.outside row col hlit]

theorem flagByte_eq_one_iff (b : Bool) : flagByte b = 1 ↔ b = true := by
  cases b <;> decide

/-- With `x` and `y` not 15 a second draw meets the place, the bytes and the display that the first left. -/
theorem drawn_again_toggled {x y : Reg} (hx : x ≠ 15) (hy : y ≠ 15) (n : Fin 16) (s : State) :
    Toggled (underSprite s.mem s.i.toNat s.v[x].toNat s.v[y].toNat n.val) ⟨(s.drawn x y n).display, false⟩
      ((s.afterDrw x y n).drawn x y n) := by
  have htoggled := drawn_toggled x y n (s.afterDrw x y n)
  rwa [afterDrw_v_of_ne x y n s x hx, afterDrw_v_of_ne x y n s y hy] at htoggled

/-- Settles O42: both draws toggle one set of pixels. The second starts with no collision seen, so `VF` tells whether
one of those pixels was on after the first, that is, turned on by it. -/
theorem drawingTwiceRestoresTheDisplay : Obligations.DrawingTwiceRestoresTheDisplay := by
  intro x y n s hx hy hfits
  have hfits' : n.val = 0 ∨ s.i.toNat + (n.val - 1) ≤ 4095 := by omega
  have hfirst := drawn_toggled x y n s
  have hsecond := drawn_again_toggled hx hy n s
  refine ⟨s.afterDrw x y n, (s.afterDrw x y n).afterDrw x y n, checkData_of_fits n.val s _ hfits',
    checkData_of_fits n.val (s.afterDrw x y n) _ hfits', hfirst.twice hsecond rfl, ?_⟩
  rw [afterDrw_v_flag, flagByte_eq_one_iff, hsecond.hit, or_iff_right Bool.false_ne_true]
  exact exists₂_congr hfirst.turned_on_iff

end Sys2Proof.Machine
end
